-- ==== Sys2Proof/Word.lean ====
section
/-! DEFINITION. The widths of the hardware (spec/00_scope.md R6, spec/30_encoding.md R48): the names for
the bit vectors of the instruction set. Every value is unsigned (R8); bit 0 is the least significant (R7). -/

namespace Sys2Proof

/-- An 8-bit value: a general register, a timer, an immediate `kk`, a byte of memory (R6 `V_WIDTH`, `TIMER_WIDTH`). -/
abbrev Byte := BitVec 8

/-- A 16-bit value: the pc, the index register, a stack entry, an instruction word (R6 `PC_WIDTH`, `I_WIDTH`,
`STACK_ENTRY_WIDTH`, `INSTR_WIDTH`). -/
abbrev Word := BitVec 16

/-- The 4-bit field that names a general register, `V0` to `VF` (R48 `x`, `y`). -/
abbrev Reg := BitVec 4

/-- A 4-bit field that names no register: the row count of `Dxyn`, the ignored nibble of `00E0` and `00EE` (R48, R53). -/
abbrev Nibble := BitVec 4

/-- The 12-bit address field `nnn` (R48). -/
abbrev Addr := BitVec 12

/-- The 17-bit `fault_info` field of the fault record (R28). -/
abbrev Info := BitVec 17

/-- `VF`, the register that holds the flag (R16). -/
abbrev vf : Reg := 0xF#4

end Sys2Proof
end

