-- ==== Sys2Proof/Syntax.lean ====
section
/-! DEFINITION. The 34 instructions of spec/opcode_table.json, one constructor per row, in the table's order.
An operand has exactly the width of its field in the word (spec/30_encoding.md R48), so every term is an
instruction of the machine. A field that the decode ignores (`00E0`, `00EE` bits 11 to 8, R53) or that the
execution ignores (`8xy6`, `8xyE` bits 7 to 4, R90, R92) is kept, so that an instruction stands for exactly
one word: the fault record holds that word (R28). -/

namespace Sys2Proof

/-- An instruction with its operand fields (R10, R48, R51, R52). -/
inductive Instr where
  /-- `00E0` CLS; `ignored` is bits 11 to 8 (R104, R53). -/
  | cls (ignored : Nibble)
  /-- `00EE` RET; `ignored` is bits 11 to 8 (R70, R53). -/
  | ret (ignored : Nibble)
  /-- `1nnn` JP addr (R71). -/
  | jp (nnn : Addr)
  /-- `2nnn` CALL addr (R72). -/
  | call (nnn : Addr)
  /-- `3xkk` SE Vx, byte (R75). -/
  | seImm (x : Reg) (kk : Byte)
  /-- `4xkk` SNE Vx, byte (R76). -/
  | sneImm (x : Reg) (kk : Byte)
  /-- `5xy0` SE Vx, Vy (R77). -/
  | seReg (x y : Reg)
  /-- `6xkk` LD Vx, byte (R82). -/
  | ldImm (x : Reg) (kk : Byte)
  /-- `7xkk` ADD Vx, byte (R83). -/
  | addImm (x : Reg) (kk : Byte)
  /-- `8xy0` LD Vx, Vy (R84). -/
  | ldReg (x y : Reg)
  /-- `8xy1` OR Vx, Vy (R85). -/
  | orReg (x y : Reg)
  /-- `8xy2` AND Vx, Vy (R86). -/
  | andReg (x y : Reg)
  /-- `8xy3` XOR Vx, Vy (R87). -/
  | xorReg (x y : Reg)
  /-- `8xy4` ADD Vx, Vy with carry (R88). -/
  | addReg (x y : Reg)
  /-- `8xy5` SUB Vx, Vy (R89). -/
  | subReg (x y : Reg)
  /-- `8xy6` SHR Vx; `y` is decoded and ignored (R90). -/
  | shr (x y : Reg)
  /-- `8xy7` SUBN Vx, Vy (R91). -/
  | subnReg (x y : Reg)
  /-- `8xyE` SHL Vx; `y` is decoded and ignored (R92). -/
  | shl (x y : Reg)
  /-- `9xy0` SNE Vx, Vy (R78). -/
  | sneReg (x y : Reg)
  /-- `Annn` LD I, addr (R94). -/
  | ldI (nnn : Addr)
  /-- `Bnnn` JP V0, addr (R73). -/
  | jpV0 (nnn : Addr)
  /-- `Cxkk` RND Vx, byte (R93). -/
  | rnd (x : Reg) (kk : Byte)
  /-- `Dxyn` DRW Vx, Vy, nibble (R105). -/
  | drw (x y : Reg) (n : Nibble)
  /-- `Ex9E` SKP Vx (R79). -/
  | skp (x : Reg)
  /-- `ExA1` SKNP Vx (R80). -/
  | sknp (x : Reg)
  /-- `Fx07` LD Vx, DT (R100). -/
  | ldVxDt (x : Reg)
  /-- `Fx0A` LD Vx, K (R101). -/
  | ldVxK (x : Reg)
  /-- `Fx15` LD DT, Vx (R102). -/
  | ldDtVx (x : Reg)
  /-- `Fx18` LD ST, Vx (R103). -/
  | ldStVx (x : Reg)
  /-- `Fx1E` ADD I, Vx (R95). -/
  | addIVx (x : Reg)
  /-- `Fx29` LD F, Vx (R96). -/
  | ldFVx (x : Reg)
  /-- `Fx33` LD B, Vx (R97). -/
  | ldBVx (x : Reg)
  /-- `Fx55` LD [I], Vx (R98). -/
  | ldMemVx (x : Reg)
  /-- `Fx65` LD Vx, [I] (R99). -/
  | ldVxMem (x : Reg)
  deriving DecidableEq, Repr

end Sys2Proof
end

