-- ==== Sys2Proof/WellFormed.lean ====
section
/-! DEFINITION. Well-formed instructions, as they are WRITTEN (spec/30_encoding.md R56, R49): a line of the
assembler names a mnemonic and operands that are plain numbers, and is well formed when the mnemonic has that
operand shape and every number fits its field. A term of `Instr` has fields of exactly those widths, so each of
them is well formed (Sys2Proof/Laws/PerInstr.lean proves it, constructor by constructor). -/

namespace Sys2Proof

/-- The mnemonics of R56. -/
inductive Mnemonic where
  | CLS | RET | JP | CALL | SE | SNE | LD | ADD | OR | AND | XOR | SUB | SHR | SUBN | SHL | RND | DRW | SKP | SKNP
  deriving DecidableEq, Repr

/-- A mnemonic's text (R56; the strings are the spec's own default, decision D23). -/
def Mnemonic.text : Mnemonic → String
  | .CLS => "CLS" | .RET => "RET" | .JP => "JP" | .CALL => "CALL" | .SE => "SE" | .SNE => "SNE" | .LD => "LD"
  | .ADD => "ADD" | .OR => "OR" | .AND => "AND" | .XOR => "XOR" | .SUB => "SUB" | .SHR => "SHR" | .SUBN => "SUBN"
  | .SHL => "SHL" | .RND => "RND" | .DRW => "DRW" | .SKP => "SKP" | .SKNP => "SKNP"

/-- An operand as it is written (R56): `v 10` is `VA`, `num 0x200` a byte, an address or a nibble, whichever its
place asks for; the others are the fixed words `I`, `DT`, `ST`, `K`, `F`, `B` and `[I]`. -/
inductive Operand where
  | v (number : Nat)
  | num (value : Nat)
  | I | DT | ST | K | F | B | atI
  deriving DecidableEq, Repr

/-- One written instruction. -/
structure AsmLine where
  mnemonic : Mnemonic
  operands : List Operand
  deriving DecidableEq, Repr

/-- The number of a register, refused above `VF` (R49: any of the 16 registers). -/
def regOf (number : Nat) : Option Reg :=
  if number < 16 then some (BitVec.ofNat 4 number) else none

/-- A `byte` operand, refused above 0xFF (R49). -/
def byteOf (value : Nat) : Option Byte :=
  if value < 256 then some (BitVec.ofNat 8 value) else none

/-- An `addr` operand, refused above 0xFFF (R49). -/
def addrOf (value : Nat) : Option Addr :=
  if value < 4096 then some (BitVec.ofNat 12 value) else none

/-- A `nibble` operand, refused above 15 (R49: a count from 0 to 15). -/
def nibbleOf (value : Nat) : Option Nibble :=
  if value < 16 then some (BitVec.ofNat 4 value) else none

/-- An instruction of one register operand. -/
def withReg (x : Nat) (mk : Reg → Instr) : Option Instr :=
  (regOf x).map mk

/-- An instruction of two register operands. -/
def withRegs (x y : Nat) (mk : Reg → Reg → Instr) : Option Instr :=
  (regOf x).bind fun rx => (regOf y).map fun ry => mk rx ry

/-- An instruction of a register and a byte operand. -/
def withRegByte (x kk : Nat) (mk : Reg → Byte → Instr) : Option Instr :=
  (regOf x).bind fun rx => (byteOf kk).map fun b => mk rx b

/-- The instruction a written line stands for, and `none` when its operands do not have the shape its mnemonic
takes or a number does not fit its field (R56). `CLS` and `RET` are written with `x = 0`, and the `y` of
`SHR` and `SHL` is written as given. -/
def AsmLine.toInstr (l : AsmLine) : Option Instr :=
  match l.mnemonic, l.operands with
  | .CLS, [] => some (.cls 0)
  | .RET, [] => some (.ret 0)
  | .JP, [.num a] => (addrOf a).map .jp
  | .JP, [.v r, .num a] => if r = 0 then (addrOf a).map .jpV0 else none
  | .CALL, [.num a] => (addrOf a).map .call
  | .SE, [.v x, .num k] => withRegByte x k .seImm
  | .SE, [.v x, .v y] => withRegs x y .seReg
  | .SNE, [.v x, .num k] => withRegByte x k .sneImm
  | .SNE, [.v x, .v y] => withRegs x y .sneReg
  | .LD, [.v x, .num k] => withRegByte x k .ldImm
  | .LD, [.v x, .v y] => withRegs x y .ldReg
  | .LD, [.I, .num a] => (addrOf a).map .ldI
  | .LD, [.v x, .DT] => withReg x .ldVxDt
  | .LD, [.v x, .K] => withReg x .ldVxK
  | .LD, [.DT, .v x] => withReg x .ldDtVx
  | .LD, [.ST, .v x] => withReg x .ldStVx
  | .LD, [.F, .v x] => withReg x .ldFVx
  | .LD, [.B, .v x] => withReg x .ldBVx
  | .LD, [.atI, .v x] => withReg x .ldMemVx
  | .LD, [.v x, .atI] => withReg x .ldVxMem
  | .ADD, [.v x, .num k] => withRegByte x k .addImm
  | .ADD, [.v x, .v y] => withRegs x y .addReg
  | .ADD, [.I, .v x] => withReg x .addIVx
  | .OR, [.v x, .v y] => withRegs x y .orReg
  | .AND, [.v x, .v y] => withRegs x y .andReg
  | .XOR, [.v x, .v y] => withRegs x y .xorReg
  | .SUB, [.v x, .v y] => withRegs x y .subReg
  | .SHR, [.v x, .v y] => withRegs x y .shr
  | .SUBN, [.v x, .v y] => withRegs x y .subnReg
  | .SHL, [.v x, .v y] => withRegs x y .shl
  | .RND, [.v x, .num k] => withRegByte x k .rnd
  | .DRW, [.v x, .v y, .num n] => (nibbleOf n).bind fun rows => withRegs x y fun rx ry => .drw rx ry rows
  | .SKP, [.v x] => withReg x .skp
  | .SKNP, [.v x] => withReg x .sknp
  | _, _ => none

/-- A written line is well formed when it stands for an instruction. -/
def AsmLine.wellFormed (l : AsmLine) : Bool :=
  l.toInstr.isSome

/-- How an instruction is written (R56). The ignored nibble of `00E0` and `00EE` is not written. -/
def Instr.toAsm : Instr → AsmLine
  | .cls _ => ⟨.CLS, []⟩
  | .ret _ => ⟨.RET, []⟩
  | .jp nnn => ⟨.JP, [.num nnn.toNat]⟩
  | .call nnn => ⟨.CALL, [.num nnn.toNat]⟩
  | .seImm x kk => ⟨.SE, [.v x.toNat, .num kk.toNat]⟩
  | .sneImm x kk => ⟨.SNE, [.v x.toNat, .num kk.toNat]⟩
  | .seReg x y => ⟨.SE, [.v x.toNat, .v y.toNat]⟩
  | .ldImm x kk => ⟨.LD, [.v x.toNat, .num kk.toNat]⟩
  | .addImm x kk => ⟨.ADD, [.v x.toNat, .num kk.toNat]⟩
  | .ldReg x y => ⟨.LD, [.v x.toNat, .v y.toNat]⟩
  | .orReg x y => ⟨.OR, [.v x.toNat, .v y.toNat]⟩
  | .andReg x y => ⟨.AND, [.v x.toNat, .v y.toNat]⟩
  | .xorReg x y => ⟨.XOR, [.v x.toNat, .v y.toNat]⟩
  | .addReg x y => ⟨.ADD, [.v x.toNat, .v y.toNat]⟩
  | .subReg x y => ⟨.SUB, [.v x.toNat, .v y.toNat]⟩
  | .shr x y => ⟨.SHR, [.v x.toNat, .v y.toNat]⟩
  | .subnReg x y => ⟨.SUBN, [.v x.toNat, .v y.toNat]⟩
  | .shl x y => ⟨.SHL, [.v x.toNat, .v y.toNat]⟩
  | .sneReg x y => ⟨.SNE, [.v x.toNat, .v y.toNat]⟩
  | .ldI nnn => ⟨.LD, [.I, .num nnn.toNat]⟩
  | .jpV0 nnn => ⟨.JP, [.v 0, .num nnn.toNat]⟩
  | .rnd x kk => ⟨.RND, [.v x.toNat, .num kk.toNat]⟩
  | .drw x y n => ⟨.DRW, [.v x.toNat, .v y.toNat, .num n.toNat]⟩
  | .skp x => ⟨.SKP, [.v x.toNat]⟩
  | .sknp x => ⟨.SKNP, [.v x.toNat]⟩
  | .ldVxDt x => ⟨.LD, [.v x.toNat, .DT]⟩
  | .ldVxK x => ⟨.LD, [.v x.toNat, .K]⟩
  | .ldDtVx x => ⟨.LD, [.DT, .v x.toNat]⟩
  | .ldStVx x => ⟨.LD, [.ST, .v x.toNat]⟩
  | .addIVx x => ⟨.ADD, [.I, .v x.toNat]⟩
  | .ldFVx x => ⟨.LD, [.F, .v x.toNat]⟩
  | .ldBVx x => ⟨.LD, [.B, .v x.toNat]⟩
  | .ldMemVx x => ⟨.LD, [.atI, .v x.toNat]⟩
  | .ldVxMem x => ⟨.LD, [.v x.toNat, .atI]⟩

/-- An instruction is well formed when the way it is written is. -/
def Instr.wellFormed (i : Instr) : Bool :=
  i.toAsm.wellFormed

end Sys2Proof
end

