-- ==== Sys2Proof/Decode.lean ====
section
/-! DEFINITION. The decoder and the encoder (spec/30_encoding.md). The decoder is the three-tier dispatch of R50
over the key tables of R51, with the fields of R48; the encoder is written from the formats of R48. Both work on
the 16-bit word; the bytes of a word are big-endian (R36, R47). -/

namespace Sys2Proof

/-- The 34 tags of R51. -/
inductive Tag where
  | CLS | RET | JP | CALL | SE_IMM | SNE_IMM | SE_REG | LD_IMM | ADD_IMM | LD_REG | OR | AND | XOR | ADD_REG | SUB
  | SHR | SUBN | SHL | SNE_REG | LD_I | JP_V0 | RND | DRW | SKP | SKNP | LD_VX_DT | LD_VX_K | LD_DT_VX | LD_ST_VX
  | ADD_I_VX | LD_F_VX | LD_B_VX | LD_MEM_VX | LD_VX_MEM
  deriving DecidableEq, Repr

/-- Why bytes are no instruction. -/
inductive DecodeError where
  /-- No mask tier matches the word (R50, R54). -/
  | unrecognized (w : Word)
  /-- There are fewer than the two bytes that every instruction has (R47). -/
  | truncated
  deriving DecidableEq, Repr

/-! ## The fields of a word (R48) -/

/-- `x` = w[11:8]. -/
def fieldX (w : Word) : BitVec 4 := w.extractLsb' 8 4

/-- `y` = w[7:4]. -/
def fieldY (w : Word) : BitVec 4 := w.extractLsb' 4 4

/-- `n` = w[3:0]. -/
def fieldN (w : Word) : BitVec 4 := w.extractLsb' 0 4

/-- `kk` = w[7:0]. -/
def fieldKK (w : Word) : BitVec 8 := w.extractLsb' 0 8

/-- `nnn` = w[11:0]. -/
def fieldNNN (w : Word) : BitVec 12 := w.extractLsb' 0 12

/-! ## The dispatch (R50, R51) -/

/-- The mask of tier 1. -/
def tier1Mask : Word := 0xF0FF#16

/-- The mask of tier 2 (spec/90_conflicts.md C1). -/
def tier2Mask : Word := 0xF00F#16

/-- The mask of tier 3 (spec/90_conflicts.md C1). -/
def tier3Mask : Word := 0xF000#16

/-- The keys of tier 1. -/
def tier1 : List (Word × Tag) :=
  [(0x00E0#16, .CLS), (0x00EE#16, .RET), (0xE09E#16, .SKP), (0xE0A1#16, .SKNP), (0xF007#16, .LD_VX_DT),
   (0xF00A#16, .LD_VX_K), (0xF015#16, .LD_DT_VX), (0xF018#16, .LD_ST_VX), (0xF01E#16, .ADD_I_VX),
   (0xF029#16, .LD_F_VX), (0xF033#16, .LD_B_VX), (0xF055#16, .LD_MEM_VX), (0xF065#16, .LD_VX_MEM)]

/-- The keys of tier 2. -/
def tier2 : List (Word × Tag) :=
  [(0x5000#16, .SE_REG), (0x8000#16, .LD_REG), (0x8001#16, .OR), (0x8002#16, .AND), (0x8003#16, .XOR),
   (0x8004#16, .ADD_REG), (0x8005#16, .SUB), (0x8006#16, .SHR), (0x8007#16, .SUBN), (0x800E#16, .SHL),
   (0x9000#16, .SNE_REG)]

/-- The keys of tier 3. -/
def tier3 : List (Word × Tag) :=
  [(0x1000#16, .JP), (0x2000#16, .CALL), (0x3000#16, .SE_IMM), (0x4000#16, .SNE_IMM), (0x6000#16, .LD_IMM),
   (0x7000#16, .ADD_IMM), (0xA000#16, .LD_I), (0xB000#16, .JP_V0), (0xC000#16, .RND), (0xD000#16, .DRW)]

/-- The tag a key table gives a key. -/
def lookupKey : List (Word × Tag) → Word → Option Tag
  | [], _ => none
  | (key, tag) :: rest, w => if w = key then some tag else lookupKey rest w

/-- The tag of a word: the first tier that has the masked word (R50). -/
def dispatch (w : Word) : Option Tag :=
  match lookupKey tier1 (w &&& tier1Mask) with
  | some tag => some tag
  | none =>
    match lookupKey tier2 (w &&& tier2Mask) with
    | some tag => some tag
    | none => lookupKey tier3 (w &&& tier3Mask)

/-- The instruction of a tag, with the operand fields its pattern names (R48, R52). -/
def buildInstr (tag : Tag) (w : Word) : Instr :=
  match tag with
  | .CLS => .cls (fieldX w)
  | .RET => .ret (fieldX w)
  | .JP => .jp (fieldNNN w)
  | .CALL => .call (fieldNNN w)
  | .SE_IMM => .seImm (fieldX w) (fieldKK w)
  | .SNE_IMM => .sneImm (fieldX w) (fieldKK w)
  | .SE_REG => .seReg (fieldX w) (fieldY w)
  | .LD_IMM => .ldImm (fieldX w) (fieldKK w)
  | .ADD_IMM => .addImm (fieldX w) (fieldKK w)
  | .LD_REG => .ldReg (fieldX w) (fieldY w)
  | .OR => .orReg (fieldX w) (fieldY w)
  | .AND => .andReg (fieldX w) (fieldY w)
  | .XOR => .xorReg (fieldX w) (fieldY w)
  | .ADD_REG => .addReg (fieldX w) (fieldY w)
  | .SUB => .subReg (fieldX w) (fieldY w)
  | .SHR => .shr (fieldX w) (fieldY w)
  | .SUBN => .subnReg (fieldX w) (fieldY w)
  | .SHL => .shl (fieldX w) (fieldY w)
  | .SNE_REG => .sneReg (fieldX w) (fieldY w)
  | .LD_I => .ldI (fieldNNN w)
  | .JP_V0 => .jpV0 (fieldNNN w)
  | .RND => .rnd (fieldX w) (fieldKK w)
  | .DRW => .drw (fieldX w) (fieldY w) (fieldN w)
  | .SKP => .skp (fieldX w)
  | .SKNP => .sknp (fieldX w)
  | .LD_VX_DT => .ldVxDt (fieldX w)
  | .LD_VX_K => .ldVxK (fieldX w)
  | .LD_DT_VX => .ldDtVx (fieldX w)
  | .LD_ST_VX => .ldStVx (fieldX w)
  | .ADD_I_VX => .addIVx (fieldX w)
  | .LD_F_VX => .ldFVx (fieldX w)
  | .LD_B_VX => .ldBVx (fieldX w)
  | .LD_MEM_VX => .ldMemVx (fieldX w)
  | .LD_VX_MEM => .ldVxMem (fieldX w)

/-- `decode(w)` of R50: one of the 34 instructions, or unrecognized (R55: the two outcomes are the only ones). -/
def decodeWord (w : Word) : Except DecodeError Instr :=
  match dispatch w with
  | some tag => .ok (buildInstr tag w)
  | none => .error (.unrecognized w)

/-! ## Words and bytes (R36, R37, R47) -/

/-- The word of two bytes, the first (lower-addressed) one the high byte. -/
def wordOfBytes (hi lo : Byte) : Word := hi ++ lo

/-- The high byte of a word, which stands at the lower address. -/
def hiByte (w : Word) : Byte := w.extractLsb' 8 8

/-- The low byte of a word. -/
def loByte (w : Word) : Byte := w.extractLsb' 0 8

/-- Decode the first instruction of a run of bytes, and give the bytes after it. -/
def decode : List Byte → Except DecodeError (Instr × List Byte)
  | hi :: lo :: rest =>
    match decodeWord (wordOfBytes hi lo) with
    | .ok i => .ok (i, rest)
    | .error e => .error e
  | [_] => .error .truncated
  | [] => .error .truncated

/-! ## The encoder (R48's formats) -/

/-- Format `Z`: `0000 xxxx` and the sub-opcode byte. -/
def formatZ (x : Nibble) (sub : Byte) : Word := 0x0#4 ++ x ++ sub

/-- Format `A`: the top nibble and an address. -/
def formatA (op : BitVec 4) (nnn : Addr) : Word := op ++ nnn

/-- Format `XK`: the top nibble, a register and a byte. -/
def formatXK (op : BitVec 4) (x : Reg) (kk : Byte) : Word := op ++ x ++ kk

/-- Format `XY`: the top nibble, two registers and the sub-opcode nibble. -/
def formatXY (op : BitVec 4) (x y : Reg) (sub : BitVec 4) : Word := op ++ x ++ y ++ sub

/-- Format `XYN`: `1101`, two registers and a count. -/
def formatXYN (x y : Reg) (n : Nibble) : Word := 0xD#4 ++ x ++ y ++ n

/-- Format `X`: the top nibble, a register and the sub-opcode byte. -/
def formatX (op : BitVec 4) (x : Reg) (sub : Byte) : Word := op ++ x ++ sub

/-- The one word an instruction stands for. -/
def encode : Instr → Word
  | .cls x => formatZ x 0xE0#8
  | .ret x => formatZ x 0xEE#8
  | .jp nnn => formatA 0x1#4 nnn
  | .call nnn => formatA 0x2#4 nnn
  | .seImm x kk => formatXK 0x3#4 x kk
  | .sneImm x kk => formatXK 0x4#4 x kk
  | .seReg x y => formatXY 0x5#4 x y 0x0#4
  | .ldImm x kk => formatXK 0x6#4 x kk
  | .addImm x kk => formatXK 0x7#4 x kk
  | .ldReg x y => formatXY 0x8#4 x y 0x0#4
  | .orReg x y => formatXY 0x8#4 x y 0x1#4
  | .andReg x y => formatXY 0x8#4 x y 0x2#4
  | .xorReg x y => formatXY 0x8#4 x y 0x3#4
  | .addReg x y => formatXY 0x8#4 x y 0x4#4
  | .subReg x y => formatXY 0x8#4 x y 0x5#4
  | .shr x y => formatXY 0x8#4 x y 0x6#4
  | .subnReg x y => formatXY 0x8#4 x y 0x7#4
  | .shl x y => formatXY 0x8#4 x y 0xE#4
  | .sneReg x y => formatXY 0x9#4 x y 0x0#4
  | .ldI nnn => formatA 0xA#4 nnn
  | .jpV0 nnn => formatA 0xB#4 nnn
  | .rnd x kk => formatXK 0xC#4 x kk
  | .drw x y n => formatXYN x y n
  | .skp x => formatX 0xE#4 x 0x9E#8
  | .sknp x => formatX 0xE#4 x 0xA1#8
  | .ldVxDt x => formatX 0xF#4 x 0x07#8
  | .ldVxK x => formatX 0xF#4 x 0x0A#8
  | .ldDtVx x => formatX 0xF#4 x 0x15#8
  | .ldStVx x => formatX 0xF#4 x 0x18#8
  | .addIVx x => formatX 0xF#4 x 0x1E#8
  | .ldFVx x => formatX 0xF#4 x 0x29#8
  | .ldBVx x => formatX 0xF#4 x 0x33#8
  | .ldMemVx x => formatX 0xF#4 x 0x55#8
  | .ldVxMem x => formatX 0xF#4 x 0x65#8

/-- The two bytes of an instruction as they lie in memory. -/
def encodeBytes (i : Instr) : List Byte :=
  [hiByte (encode i), loByte (encode i)]

/-- The word a written line is assembled to, when it is well formed (R56). -/
def AsmLine.assemble (l : AsmLine) : Option Word :=
  l.toInstr.map encode

/-- The debug lookup `name(w)` of R57: the mnemonic of the decoded instruction, or `UNKNOWN`. It reads no state. -/
def nameOf (w : Word) : String :=
  match decodeWord w with
  | .ok i => i.toAsm.mnemonic.text
  | .error _ => "UNKNOWN"

/-- The instruction the decoder reads from `nbits` bits `w` numbered as spec/opcode_table.json numbers them (one
16-bit word, bit 0 its least significant): the word's two bytes, the high one first, given to `decode`. -/
def decodeTableWord (nbits w : Nat) : Option Instr :=
  let word : Word := BitVec.ofNat 16 (w % 2 ^ nbits)
  match decode [hiByte word, loByte word] with
  | .ok (i, _) => some i
  | .error _ => none

end Sys2Proof
end

