-- ==== Sys2Proof/Config.lean ====
section
/-! DEFINITION. The parameters of spec/00_scope.md R6 that are open or that a model may take as parameters:
`rand_byte` (decision D20) and `KEYWAIT_TIEBREAK` (decision D21). `FONT_ROM` (decision D22) stands in
Machine/Memory.lean, beside what an unwritten address reads as. The fixed sizes of R6 are the types of State's
fields and the literals of the spec's own pseudocode. -/

namespace Sys2Proof.Config

open Sys2Proof

/-- The values the parameter `KEYWAIT_TIEBREAK` may take (R6, decision D21). -/
inductive KeyTiebreak where
  /-- The highest-indexed held key wins. -/
  | highest
  /-- The lowest-indexed held key wins. -/
  | lowest
  deriving DecidableEq, Repr

/-- `KEYWAIT_TIEBREAK = HIGHEST`, the behaviour the source states (R101, decision D21; log entry 3). -/
def keywaitTiebreak : KeyTiebreak := .highest

/-- FREE VALUE (log entry 1). `randByte k` is the byte the host supplies to the k-th execution of `Cxkk`. It has
no body, so nothing can be proved of any draw (R93, R31, decision D20: OPEN). -/
opaque randByte : Nat → Byte

end Sys2Proof.Config
end

