-- ==== Sys2Proof/Machine/State.lean ====
section
/-! DEFINITION. The state of the block: the list of spec/10_state.md R13 field by field, with the fault record
(R28) and the unrecognized-opcode report (R29), and the model's own counter of random draws (log entry 1).
All of it is plain data. -/

namespace Sys2Proof.Machine

open Sys2Proof

/-- The causes of the fault record's `fault_code` field (R28, R107). Codes 6 and 7 are reserved and never produced,
so they have no name. -/
inductive FaultCode where
  /-- 0: no fault is latched. -/
  | noFault
  /-- 1: FETCH_OUT_OF_RANGE, raised by the fetch of a cycle. -/
  | fetchOutOfRange
  /-- 2: DATA_OUT_OF_RANGE, raised by `Dxyn` (n > 0), `Fx33`, `Fx55`, `Fx65`. -/
  | dataOutOfRange
  /-- 3: STACK_OVERFLOW, raised by `2nnn`. -/
  | stackOverflow
  /-- 4: STACK_UNDERFLOW, raised by `00EE`. -/
  | stackUnderflow
  /-- 5: KEY_INDEX_OUT_OF_RANGE, raised by `Ex9E`, `ExA1`. -/
  | keyIndexOutOfRange
  deriving DecidableEq, Repr

/-- The fault record (R28). `halted` is no field: it is hardwired to `fault_code != 0`. -/
structure FaultRecord where
  /-- `fault_code`. -/
  code : FaultCode
  /-- `fault_pc`: the fetch address of the faulting instruction. -/
  pc : Word
  /-- `fault_opcode`: the instruction word, 0x0000 for FETCH_OUT_OF_RANGE. -/
  opcode : Word
  /-- `fault_info`. -/
  info : Info
  deriving DecidableEq, Repr

/-- The fault record with no fault latched: every field 0 (R28, R123). -/
def FaultRecord.clear : FaultRecord := { code := .noFault, pc := 0#16, opcode := 0#16, info := 0#17 }

/-- The unrecognized-opcode report (R29). -/
structure UnrecReport where
  /-- `unrecognized`: the last cycle's word matched no tier. -/
  unrecognized : Bool
  /-- `unrecognized_opcode`: that word. -/
  opcode : Word
  /-- `unrecognized_pc`: its fetch address. -/
  pc : Word
  deriving DecidableEq, Repr

/-- The report of a cycle that has nothing to report: every field 0 (R29). -/
def UnrecReport.clear : UnrecReport := { unrecognized := false, opcode := 0#16, pc := 0#16 }

/-- The display buffer (R25, R26): one bit per pixel, row `py` a vector of 64 bits whose bit `px` is
`disp[px][py]` (log entry 8). -/
abbrev Display := Vector (BitVec 64) 32

/-- The 4096-byte memory (R32) as a list of (address, byte) pairs in one canonical form (Machine/Memory.lean). -/
abbrev Memory := List Host.Cell

/-- The architectural state (R13). -/
structure State where
  /-- `V[0..15]`, the general registers (R14). -/
  v : Vector Byte 16
  /-- `I`, the index register (R18). -/
  index : Word
  /-- `pc`, the program counter (R19). -/
  pc : Word
  /-- `stack[0..15]`, the return addresses (R21). -/
  stack : Vector Word 16
  /-- `sp`, the number of entries in use, 0 to 16 (R22). -/
  sp : Fin 17
  /-- `DT`, the delay timer (R23). -/
  dt : Byte
  /-- `ST`, the sound timer (R23). -/
  st : Byte
  /-- `key[0..15]`, the keypad latch: bit `k` is 1 when key `k` is held (R24). -/
  key : BitVec 16
  /-- `disp[0..63][0..31]`, the display buffer (R25). -/
  disp : Display
  /-- `mem[0..4095]` (R32). -/
  mem : Memory
  /-- The fault record (R28). -/
  fault : FaultRecord
  /-- The unrecognized-opcode report (R29). -/
  report : UnrecReport
  /-- MODEL'S OWN (log entry 1): how many `rand_byte` draws have been taken. -/
  draws : Nat
  deriving DecidableEq, Repr

/-- The reasons for which the machine stops with no next state: none. Every fault of the hardware is an entry the
spec describes (R110: the fault record is written and the unit is halted), so it is a next state, and a halted
unit answers every `step` with the state it holds (R63). Log entry 5; safe. -/
inductive Fault where
  deriving DecidableEq, Repr

/-- The reasons for which an instruction has no meaning in the model. -/
inductive Refusal where
  /-- Raised by an arm of `exec` whose instruction has no meaning yet; no arm raises it. Safe: nothing is proved of
  such an instruction. -/
  | notModelled (mnemonic : String)
  deriving DecidableEq, Repr

/-- The outcome of one instruction or one step of this machine. -/
abbrev Result := Host.Outcome State Fault Refusal

/-- Power-on with the default `FONT_ROM` (R123): `pc` at 0x200 and everything else 0; memory lists nothing, so every
address reads as `Memory.unlisted` says, the font at 0x050 to 0x09F and 0 elsewhere. -/
def State.reset : State :=
  { v := Vector.replicate 16 0#8
    index := 0#16
    pc := 0x200#16
    stack := Vector.replicate 16 0#16
    sp := 0
    dt := 0#8
    st := 0#8
    key := 0#16
    disp := Vector.replicate 32 0#64
    mem := []
    fault := .clear
    report := .clear
    draws := 0 }

end Sys2Proof.Machine
end

