-- ==== Sys2Proof/Machine/Memory.lean ====
section
/-! DEFINITION. The memory (spec/20_memory.md): what an unwritten address reads as, reading and writing a byte,
and the canonical form that makes equal memories equal lists. Addresses are natural numbers (R40). -/

namespace Sys2Proof.Machine

open Sys2Proof

/-- Glyphs 0 to 7 of the default `FONT_ROM` (R35). -/
def fontGlyphs0to7 : List Byte :=
  [0xF0#8, 0x90#8, 0x90#8, 0x90#8, 0xF0#8] ++ [0x20#8, 0x60#8, 0x20#8, 0x20#8, 0x70#8] ++
  [0xF0#8, 0x10#8, 0xF0#8, 0x80#8, 0xF0#8] ++ [0xF0#8, 0x10#8, 0xF0#8, 0x10#8, 0xF0#8] ++
  [0x90#8, 0x90#8, 0xF0#8, 0x10#8, 0x10#8] ++ [0xF0#8, 0x80#8, 0xF0#8, 0x10#8, 0xF0#8] ++
  [0xF0#8, 0x80#8, 0xF0#8, 0x90#8, 0xF0#8] ++ [0xF0#8, 0x10#8, 0x20#8, 0x40#8, 0x40#8]

/-- Glyphs 8 to F of the default `FONT_ROM` (R35). -/
def fontGlyphs8toF : List Byte :=
  [0xF0#8, 0x90#8, 0xF0#8, 0x90#8, 0xF0#8] ++ [0xF0#8, 0x90#8, 0xF0#8, 0x10#8, 0xF0#8] ++
  [0xF0#8, 0x90#8, 0xF0#8, 0x90#8, 0x90#8] ++ [0xE0#8, 0x90#8, 0xE0#8, 0x90#8, 0xE0#8] ++
  [0xF0#8, 0x80#8, 0x80#8, 0x80#8, 0xF0#8] ++ [0xE0#8, 0x90#8, 0x90#8, 0x90#8, 0xE0#8] ++
  [0xF0#8, 0x80#8, 0xF0#8, 0x80#8, 0xF0#8] ++ [0xF0#8, 0x80#8, 0xF0#8, 0x80#8, 0x80#8]

/-- The default of the parameter `FONT_ROM`, 80 bytes (R35, decision D22; PRESUMED, log entry 2). -/
def defaultFont : List Byte := fontGlyphs0to7 ++ fontGlyphs8toF

/-- What an address that memory does not list reads as: its power-on content (R123), the font from 0x050 to 0x09F and 0
elsewhere. -/
def Memory.unlisted (a : Nat) : Byte :=
  if 0x050 ≤ a ∧ a < 0x0A0 then defaultFont.getD (a - 0x050) 0#8 else 0#8

/-- The byte at an address (`MemRead`, R41, once the range is checked). -/
def Memory.read : Memory → Nat → Byte
  | [], a => Memory.unlisted a
  | cell :: rest, a => if cell.1 = a then cell.2 else Memory.read rest a

/-- Memory without an entry for an address. -/
def Memory.erase : Memory → Nat → Memory
  | [], _ => []
  | cell :: rest, a => if cell.1 = a then Memory.erase rest a else cell :: Memory.erase rest a

/-- Memory with an entry put before the first higher address. -/
def Memory.insert : Memory → Nat → Byte → Memory
  | [], a, b => [(a, b)]
  | cell :: rest, a, b => if a < cell.1 then (a, b) :: cell :: rest else cell :: Memory.insert rest a b

/-- Write one byte (`MemWrite`, R41, once the range is checked): exactly that byte changes. Writing what an unlisted
address reads as takes the entry out. -/
def Memory.write (m : Memory) (a : Nat) (b : Byte) : Memory :=
  if b = Memory.unlisted a then m.erase a else (m.erase a).insert a b

/-- Write bytes at rising addresses from `a` on (R36, R39). -/
def Memory.writeBytes : Memory → Nat → List Byte → Memory
  | m, _, [] => m
  | m, a, b :: rest => Memory.writeBytes (m.write a b) (a + 1) rest

/-- Read `n` bytes at rising addresses from `a` on (R36, R39). -/
def Memory.readBytes (m : Memory) : Nat → Nat → List Byte
  | _, 0 => []
  | a, n + 1 => m.read a :: Memory.readBytes m (a + 1) n

/-- `Fetch16(a)`: the big-endian word at `a` and `a + 1` (R37). -/
def Memory.fetch16 (m : Memory) (a : Nat) : Word :=
  m.read a ++ m.read (a + 1)

/-- The canonical form from an address on: rising addresses, each inside the 4096 bytes, and no entry that says what an
unlisted address reads as anyway. -/
def Memory.wfFrom : Nat → Memory → Bool
  | _, [] => true
  | lo, cell :: rest =>
    decide (lo ≤ cell.1) && decide (cell.1 < 4096) && decide (cell.2 ≠ Memory.unlisted cell.1) &&
      Memory.wfFrom (cell.1 + 1) rest

/-- The canonical form of memory. -/
def Memory.wf (m : Memory) : Bool := Memory.wfFrom 0 m

end Sys2Proof.Machine
end

