-- ==== Sys2Proof/Machine/Ops.lean ====
section
/-! DEFINITION. The named operations over the state that the instructions and the cycle share: registers, stack,
timers, display, the range check of an access, taking a fault and the host's `reset()`, which is the only way out
of one (R112). -/

namespace Sys2Proof.Machine

open Sys2Proof

/-! ## General registers (R14, R17) -/

/-- `V[x]`. -/
def State.reg (s : State) (x : Reg) : Byte := s.v[x.toNat]'x.isLt

/-- `V[x] <- b`; no register is hardwired. -/
def State.setReg (s : State) (x : Reg) (b : Byte) : State :=
  { s with v := s.v.set x.toNat b x.isLt }

/-- Write the flag and then the destination (R17): the destination wins when it is `VF`. -/
def State.writeFlagged (s : State) (x : Reg) (flag result : Byte) : State :=
  (s.setReg vf flag).setReg x result

/-- The values of `V0` to `Vx` (R98). -/
def State.firstRegs (s : State) (x : Reg) : List Byte := s.v.toList.take (x.toNat + 1)

/-- Write bytes to the registers from number `j` on, in rising order (R99). -/
def State.loadRegs : State → Nat → List Byte → State
  | s, _, [] => s
  | s, j, b :: rest => State.loadRegs (s.setReg (BitVec.ofNat 4 j) b) (j + 1) rest

/-! ## Index register, pc and stack (R18 to R22) -/

/-- `I <- a`. -/
def State.setIndex (s : State) (a : Word) : State := { s with index := a }

/-- `pc <- target`. -/
def State.setPc (s : State) (target : Word) : State := { s with pc := target }

/-- `pc <- trunc_16(pc + 2)`: the fetch advance (R65) and the skip (R74). -/
def State.advance (s : State) : State := { s with pc := s.pc + 2#16 }

/-- `pc <- trunc_16(pc - 2)`: the rewind of `Fx0A` (R101). -/
def State.rewind (s : State) : State := { s with pc := s.pc - 2#16 }

/-- `stack[sp] <- a; sp <- sp + 1`, for `sp < 16` (R72). -/
def State.push (s : State) (a : Word) : State :=
  { s with
    stack := s.stack.setIfInBounds s.sp.val a
    sp := ⟨min (s.sp.val + 1) 16, by omega⟩ }

/-- `stack[sp - 1]`, the entry a pop reads, for `0 < sp` (R70). -/
def State.topOfStack (s : State) : Word := s.stack[s.sp.val - 1]'(by omega)

/-- `sp <- sp - 1; pc <- stack[sp]`, for `0 < sp`; the entry is not cleared (R70, R21). -/
def State.pop (s : State) : State :=
  { s with
    sp := ⟨s.sp.val - 1, by omega⟩
    pc := s.topOfStack }

/-! ## Timers (R23, R117) -/

/-- `DT <- b`. -/
def State.setDt (s : State) (b : Byte) : State := { s with dt := b }

/-- `ST <- b`. -/
def State.setSt (s : State) (b : Byte) : State := { s with st := b }

/-- One decrement of a timer, with its floor at 0. -/
def tick (t : Byte) : Byte := if t = 0#8 then 0#8 else t - 1#8

/-- `countdown()` (R117). -/
def State.countdown (s : State) : State := { s with dt := tick s.dt, st := tick s.st }

/-! ## The random draw (R93; log entry 1) -/

/-- The byte the host supplies to the `Cxkk` that executes now. -/
def State.randByte (s : State) : Byte := Config.randByte s.draws

/-- That draw is taken: the next one is another. -/
def State.takeDraw (s : State) : State := { s with draws := s.draws + 1 }

/-! ## Memory (R40, R41) -/

/-- Memory replaced. -/
def State.setMem (s : State) (m : Memory) : State := { s with mem := m }

/-- `CheckRange(b, c)` (R41): the lowest of the `c` addresses from `b` on that lies above 0xFFF, when one does. -/
def checkRange (b c : Nat) : Option Nat :=
  if 0 < c ∧ 0xFFF < b + c - 1 then some (max b 0x1000) else none

/-! ## Display (R25, R105) -/

/-- `disp[px][py]`; false outside the 64 x 32 grid. -/
def Display.pixel (d : Display) (px py : Nat) : Bool :=
  if h : py < 32 then d[py].getLsbD px else false

/-- `disp[px][py] <- disp[px][py] ^ 1`, for a pixel of the grid. -/
def Display.flip (d : Display) (px py : Nat) : Display :=
  if h : py < 32 then d.set py (d[py] ^^^ BitVec.twoPow 64 px) else d

/-- Every pixel unlit (R104). -/
def Display.clear : Display := Vector.replicate 32 0#64

/-- The display replaced. -/
def State.setDisp (s : State) (d : Display) : State := { s with disp := d }

/-- One bit of a sprite row (R105): column `c` of the row at (`ox`, `py`). A set bit inside the grid toggles its pixel,
and records a collision if the pixel was lit; any other bit does nothing. -/
def drawBit (row : Byte) (ox py c : Nat) (canvas : Display × Bool) : Display × Bool :=
  if row.getLsbD (7 - c) = true ∧ ox + c < 64 ∧ py < 32 then
    (canvas.1.flip (ox + c) py, canvas.2 || canvas.1.pixel (ox + c) py)
  else canvas

/-- The columns 0 to `k - 1` of a sprite row, most significant bit first (R105). -/
def drawCols (row : Byte) (ox py : Nat) : Nat → Display × Bool → Display × Bool
  | 0, canvas => canvas
  | k + 1, canvas => drawBit row ox py k (drawCols row ox py k canvas)

/-- The rows of a sprite, top row first, the first one at `py` (R105). -/
def drawRows (ox : Nat) : Nat → List Byte → Display × Bool → Display × Bool
  | _, [], canvas => canvas
  | py, row :: rest, canvas => drawRows ox (py + 1) rest (drawCols row ox py 8 canvas)

/-! ## The unrecognized-opcode report (R29, R67) -/

/-- The three report fields at 0: what a recognized instruction and a faulting cycle write. -/
def State.clearReport (s : State) : State := { s with report := .clear }

/-- The report of a word that no tier matches, fetched at `a`. -/
def State.reportUnrecognized (s : State) (w a : Word) : State :=
  { s with report := { unrecognized := true, opcode := w, pc := a } }

/-! ## Faults (R28, R108 to R112) -/

/-- Whether a code stands for a latched fault. -/
def FaultCode.isFault : FaultCode → Bool
  | .noFault => false
  | .fetchOutOfRange => true
  | .dataOutOfRange => true
  | .stackOverflow => true
  | .stackUnderflow => true
  | .keyIndexOutOfRange => true

/-- The 3 bits of `fault_code` (R28). -/
def FaultCode.toBits : FaultCode → BitVec 3
  | .noFault => 0#3
  | .fetchOutOfRange => 1#3
  | .dataOutOfRange => 2#3
  | .stackOverflow => 3#3
  | .stackUnderflow => 4#3
  | .keyIndexOutOfRange => 5#3

/-- `halted`: 1 exactly when `fault_code != 0` (R28). -/
def State.halted (s : State) : Bool := s.fault.code.isFault

/-- Fault entry (R110), on a state that still holds everything the cycle began with but the fetch advance: `pc` goes
back to the fetch address `a` (R109), the record is written, the unit is halted from now on, and the report reads 0
(R29). -/
def State.takeFault (s : State) (code : FaultCode) (info : Info) (a w : Word) : State :=
  { s with pc := a, fault := { code := code, pc := a, opcode := w, info := info }, report := .clear }

/-- `raise Fault(code, info)` while an instruction executes (R108): `pc` is its fetch address plus 2 (R65) and its word
is its encoding (log entry 4). -/
def raise (code : FaultCode) (info : Nat) (i : Instr) (s : State) : Result :=
  .next (s.takeFault code (BitVec.ofNat 17 info) (s.pc - 2#16) (encode i))

/-- An instruction that checks the `c` data addresses from `b` on before its first write (R40, R41): `t` is the state
it leaves when they are all in memory. -/
def withRange (b c : Nat) (i : Instr) (s t : State) : Result :=
  match checkRange b c with
  | some a => raise .dataOutOfRange a i s
  | none => .next t

/-- The host's `reset()` (R124), the only way out of a fault (R112): `pc`, `I`, `sp` and the timers at their initial
values, the fault record and the report cleared, everything else as it was. -/
def State.hostReset (s : State) : State :=
  { s with
    pc := 0x200#16
    index := 0#16
    sp := 0
    dt := 0#8
    st := 0#8
    fault := .clear
    report := .clear }

end Sys2Proof.Machine
end

