-- ==== Sys2Proof/Machine/Flags.lean ====
section
/-! DEFINITION. The flag values of spec/10_state.md R16 and the 8-bit results of spec/43_register_alu.md R81.
Operands go to natural numbers, the result is exact, and it is cut to 8 bits at the end (R8). -/

namespace Sys2Proof.Machine

open Sys2Proof

/-- `bit(c)` as a byte (R8, R17 `zext_8`). -/
def bit (c : Bool) : Byte := if c then 1#8 else 0#8

/-- The carry of `8xy4`: `bit(a + b > 255)` (R16, R88). -/
def carryFlag (a b : Byte) : Byte := bit (decide (255 < a.toNat + b.toNat))

/-- The strict comparison of `8xy5` (`a > b`) and, with its operands exchanged, of `8xy7` (R16, R89, R91;
spec/90_conflicts.md C6). -/
def greaterFlag (a b : Byte) : Byte := bit (decide (b.toNat < a.toNat))

/-- The bit that `8xy6` shifts out: bit 0 (R16, R90). -/
def lowBitFlag (a : Byte) : Byte := bit (a.getLsbD 0)

/-- The bit that `8xyE` shifts out: bit 7 (R16, R92). -/
def highBitFlag (a : Byte) : Byte := bit (a.getLsbD 7)

/-- The collision flag of `Dxyn` (R16, R105). -/
def collisionFlag (hit : Bool) : Byte := bit hit

/-- `trunc_8(a + b)` (R81). -/
def addWrap (a b : Byte) : Byte := BitVec.ofNat 8 (a.toNat + b.toNat)

/-- `trunc_8(a - b + 256)` (R81). -/
def subWrap (a b : Byte) : Byte := BitVec.ofNat 8 (a.toNat + 256 - b.toNat)

/-- `a >> 1`, filled with 0 at bit 7 (R81). -/
def shiftRight1 (a : Byte) : Byte := BitVec.ofNat 8 (a.toNat / 2)

/-- `trunc_8(a << 1)`, filled with 0 at bit 0 (R81). -/
def shiftLeft1 (a : Byte) : Byte := BitVec.ofNat 8 (a.toNat * 2)

end Sys2Proof.Machine
end

