-- ==== Sys2Proof/Machine/Alu.lean ====
section
/-! DEFINITION. Register loads and ALU operations (spec/43_register_alu.md): `6xkk`, `7xkk`, `8xy0` to `8xyE`, `Cxkk`.
Operands are read before any write (R9, R17); none of these can fault. -/

namespace Sys2Proof.Machine

open Sys2Proof

/-- `6xkk` LD Vx, byte (R82). -/
def execLdImm (x : Reg) (kk : Byte) (s : State) : Result :=
  .next (s.setReg x kk)

/-- `7xkk` ADD Vx, byte, with no flag (R83). -/
def execAddImm (x : Reg) (kk : Byte) (s : State) : Result :=
  .next (s.setReg x (addWrap (s.reg x) kk))

/-- `8xy0` LD Vx, Vy (R84). -/
def execLdReg (x y : Reg) (s : State) : Result :=
  .next (s.setReg x (s.reg y))

/-- `8xy1` OR Vx, Vy (R85). -/
def execOrReg (x y : Reg) (s : State) : Result :=
  .next (s.setReg x (s.reg x ||| s.reg y))

/-- `8xy2` AND Vx, Vy (R86). -/
def execAndReg (x y : Reg) (s : State) : Result :=
  .next (s.setReg x (s.reg x &&& s.reg y))

/-- `8xy3` XOR Vx, Vy (R87). -/
def execXorReg (x y : Reg) (s : State) : Result :=
  .next (s.setReg x (s.reg x ^^^ s.reg y))

/-- `8xy4` ADD Vx, Vy with carry (R88). -/
def execAddReg (x y : Reg) (s : State) : Result :=
  .next (s.writeFlagged x (carryFlag (s.reg x) (s.reg y)) (addWrap (s.reg x) (s.reg y)))

/-- `8xy5` SUB Vx, Vy (R89). -/
def execSubReg (x y : Reg) (s : State) : Result :=
  .next (s.writeFlagged x (greaterFlag (s.reg x) (s.reg y)) (subWrap (s.reg x) (s.reg y)))

/-- `8xy6` SHR Vx; `y` has no effect (R90, spec/90_conflicts.md C7). -/
def execShr (x _y : Reg) (s : State) : Result :=
  .next (s.writeFlagged x (lowBitFlag (s.reg x)) (shiftRight1 (s.reg x)))

/-- `8xy7` SUBN Vx, Vy (R91). -/
def execSubnReg (x y : Reg) (s : State) : Result :=
  .next (s.writeFlagged x (greaterFlag (s.reg y) (s.reg x)) (subWrap (s.reg y) (s.reg x)))

/-- `8xyE` SHL Vx; `y` has no effect (R92, spec/90_conflicts.md C7). -/
def execShl (x _y : Reg) (s : State) : Result :=
  .next (s.writeFlagged x (highBitFlag (s.reg x)) (shiftLeft1 (s.reg x)))

/-- `Cxkk` RND Vx, byte: the free draw of this execution, masked (R93; log entry 1). -/
def execRnd (x : Reg) (kk : Byte) (s : State) : Result :=
  .next (s.takeDraw.setReg x (s.randByte &&& kk))

end Sys2Proof.Machine
end

