-- ==== Sys2Proof/Machine/Operands.lean ====
section
/-! DEFINITION. The operand forms: the addresses and values the instructions make of their fields (spec/30_encoding.md
R49, spec/44_index_and_memory.md, spec/45_timers_and_keywait.md). -/

namespace Sys2Proof.Machine

open Sys2Proof

/-- `zext_16(nnn)` (R49). -/
def addrWord (nnn : Addr) : Word := nnn.setWidth 16

/-- The target of `Bnnn`: `trunc_16(zext_16(V0) + zext_16(nnn))`, not cut to 12 bits (R73). -/
def offsetTarget (v0 : Byte) (nnn : Addr) : Word := BitVec.ofNat 16 (v0.toNat + nnn.toNat)

/-- `trunc_16(I + v)` (R95). -/
def indexPlus (index : Word) (v : Byte) : Word := BitVec.ofNat 16 (index.toNat + v.toNat)

/-- `0x050 + 5 * v`, the address `Fx29` gives; `v` is not masked (R96). -/
def glyphAddr (v : Byte) : Word := BitVec.ofNat 16 (0x050 + 5 * v.toNat)

/-- The three decimal digits of `Fx33`, hundreds first (R97). -/
def bcdDigits (v : Byte) : List Byte :=
  [BitVec.ofNat 8 (v.toNat / 100), BitVec.ofNat 8 (v.toNat / 10 % 10), BitVec.ofNat 8 (v.toNat % 10)]

/-- `key[k] == 1` in the latch (R24). -/
def keyHeld (keys : BitVec 16) (k : Nat) : Bool := keys.getLsbD k

/-- The highest held key below `k` (R101: the last write wins when keys 0 to 15 are scanned in order). -/
def highestHeld (keys : BitVec 16) : Nat → Option Nat
  | 0 => none
  | k + 1 => if keyHeld keys k then some k else highestHeld keys k

/-- The lowest held key of the `n` keys from `k` on. -/
def lowestHeld (keys : BitVec 16) : Nat → Nat → Option Nat
  | _, 0 => none
  | k, n + 1 => if keyHeld keys k then some k else lowestHeld keys (k + 1) n

/-- The key that `Fx0A` takes, under a tie-break (R101, decision D21), when any is held. -/
def waitedKey (tiebreak : Config.KeyTiebreak) (keys : BitVec 16) : Option Nat :=
  match tiebreak with
  | .highest => highestHeld keys 16
  | .lowest => lowestHeld keys 0 16

end Sys2Proof.Machine
end

