-- ==== Sys2Proof/Machine/ControlFlow.lean ====
section
/-! DEFINITION. Control transfer (spec/41_control_flow.md): `00EE`, `1nnn`, `2nnn`, `Bnnn`. In every meaning `s` is
the state the fetch phase left, with `pc` at the fetch address plus 2 (R65, R66). -/

namespace Sys2Proof.Machine

open Sys2Proof

/-- `00EE` RET (R70). -/
def execRet (ignored : Nibble) (s : State) : Result :=
  if s.sp.val = 0 then raise .stackUnderflow 0 (.ret ignored) s else .next s.pop

/-- `1nnn` JP addr (R71). -/
def execJp (nnn : Addr) (s : State) : Result :=
  .next (s.setPc (addrWord nnn))

/-- `2nnn` CALL addr (R72). -/
def execCall (nnn : Addr) (s : State) : Result :=
  if s.sp.val = 16 then raise .stackOverflow 16 (.call nnn) s
  else .next ((s.push s.pc).setPc (addrWord nnn))

/-- `Bnnn` JP V0, addr (R73). -/
def execJpV0 (nnn : Addr) (s : State) : Result :=
  .next (s.setPc (offsetTarget (s.reg 0x0#4) nnn))

end Sys2Proof.Machine
end

