-- ==== Sys2Proof/Machine/DisplayOps.lean ====
section
/-! DEFINITION. Display (spec/46_display.md): `00E0`, `Dxyn`. -/

namespace Sys2Proof.Machine

open Sys2Proof

/-- `00E0` CLS (R104). -/
def execCls (_ignored : Nibble) (s : State) : Result :=
  .next (s.setDisp Display.clear)

/-- The sprite rows of `Dxyn` drawn at the origin that `Vx` and `Vy` give (R105): the display after it, and whether a
lit pixel was toggled off. -/
def State.drawn (s : State) (x y : Reg) (n : Nibble) : Display × Bool :=
  drawRows ((s.reg x).toNat % 64) ((s.reg y).toNat % 32) (s.mem.readBytes s.index.toNat n.toNat) (s.disp, false)

/-- `Dxyn` DRW Vx, Vy, nibble (R105): the origin is read before `VF` is written (decision D11). -/
def execDrw (x y : Reg) (n : Nibble) (s : State) : Result :=
  withRange s.index.toNat n.toNat (.drw x y n) s
    ((s.setReg vf (collisionFlag (s.drawn x y n).2)).setDisp (s.drawn x y n).1)

end Sys2Proof.Machine
end

