-- ==== Sys2Proof/Machine/IndexMemory.lean ====
section
/-! DEFINITION. Index register and memory transfers (spec/44_index_and_memory.md): `Annn`, `Fx1E`, `Fx29`, `Fx33`,
`Fx55`, `Fx65`. The effective address of byte k is the natural number I + k (R40), and no access changes I
(decision D12). -/

namespace Sys2Proof.Machine

open Sys2Proof

/-- `Annn` LD I, addr (R94). -/
def execLdI (nnn : Addr) (s : State) : Result :=
  .next (s.setIndex (addrWord nnn))

/-- `Fx1E` ADD I, Vx (R95). -/
def execAddIVx (x : Reg) (s : State) : Result :=
  .next (s.setIndex (indexPlus s.index (s.reg x)))

/-- `Fx29` LD F, Vx (R96). -/
def execLdFVx (x : Reg) (s : State) : Result :=
  .next (s.setIndex (glyphAddr (s.reg x)))

/-- `Fx33` LD B, Vx (R97). -/
def execLdBVx (x : Reg) (s : State) : Result :=
  withRange s.index.toNat 3 (.ldBVx x) s
    (s.setMem (s.mem.writeBytes s.index.toNat (bcdDigits (s.reg x))))

/-- `Fx55` LD [I], Vx (R98). -/
def execLdMemVx (x : Reg) (s : State) : Result :=
  withRange s.index.toNat (x.toNat + 1) (.ldMemVx x) s
    (s.setMem (s.mem.writeBytes s.index.toNat (s.firstRegs x)))

/-- `Fx65` LD Vx, [I] (R99). -/
def execLdVxMem (x : Reg) (s : State) : Result :=
  withRange s.index.toNat (x.toNat + 1) (.ldVxMem x) s
    (s.loadRegs 0 (s.mem.readBytes s.index.toNat (x.toNat + 1)))

end Sys2Proof.Machine
end

