-- ==== Sys2Proof/Machine/Skips.lean ====
section
/-! DEFINITION. Conditional skips (spec/42_conditional_skips.md): `3xkk`, `4xkk`, `5xy0`, `9xy0`, `Ex9E`, `ExA1`. A
taken skip advances the already-advanced `pc` by 2 more (R74). No skip writes a flag. -/

namespace Sys2Proof.Machine

open Sys2Proof

/-- Skip the next instruction if the condition holds (R74). -/
def skipIf (c : Bool) (s : State) : Result :=
  .next (if c then s.advance else s)

/-- `Ex9E` and `ExA1` on the key that `Vx` names (R79, R80): an index above 0xF is a fault. -/
def skipOnKey (x : Reg) (held : Bool) (i : Instr) (s : State) : Result :=
  if 0xF < (s.reg x).toNat then raise .keyIndexOutOfRange (s.reg x).toNat i s
  else skipIf (keyHeld s.key (s.reg x).toNat == held) s

/-- `3xkk` SE Vx, byte (R75). -/
def execSeImm (x : Reg) (kk : Byte) (s : State) : Result :=
  skipIf (s.reg x == kk) s

/-- `4xkk` SNE Vx, byte (R76). -/
def execSneImm (x : Reg) (kk : Byte) (s : State) : Result :=
  skipIf (s.reg x != kk) s

/-- `5xy0` SE Vx, Vy (R77). -/
def execSeReg (x y : Reg) (s : State) : Result :=
  skipIf (s.reg x == s.reg y) s

/-- `9xy0` SNE Vx, Vy (R78). -/
def execSneReg (x y : Reg) (s : State) : Result :=
  skipIf (s.reg x != s.reg y) s

/-- `Ex9E` SKP Vx (R79). -/
def execSkp (x : Reg) (s : State) : Result :=
  skipOnKey x true (.skp x) s

/-- `ExA1` SKNP Vx (R80). -/
def execSknp (x : Reg) (s : State) : Result :=
  skipOnKey x false (.sknp x) s

end Sys2Proof.Machine
end

