-- ==== Sys2Proof/Machine/TimersKeys.lean ====
section
/-! DEFINITION. Timer access and key wait (spec/45_timers_and_keywait.md): `Fx07`, `Fx0A`, `Fx15`, `Fx18`. The
countdown of the same cycle follows the instruction (R117). -/

namespace Sys2Proof.Machine

open Sys2Proof

/-- `Fx07` LD Vx, DT (R100). -/
def execLdVxDt (x : Reg) (s : State) : Result :=
  .next (s.setReg x s.dt)

/-- `Fx0A` LD Vx, K: take the held key, or run this instruction again next cycle (R101). -/
def execLdVxK (x : Reg) (s : State) : Result :=
  match waitedKey Config.keywaitTiebreak s.key with
  | some k => .next (s.setReg x (BitVec.ofNat 8 k))
  | none => .next s.rewind

/-- `Fx15` LD DT, Vx (R102). -/
def execLdDtVx (x : Reg) (s : State) : Result :=
  .next (s.setDt (s.reg x))

/-- `Fx18` LD ST, Vx (R103). -/
def execLdStVx (x : Reg) (s : State) : Result :=
  .next (s.setSt (s.reg x))

end Sys2Proof.Machine
end

