-- ==== Sys2Proof/Machine/Cycle.lean ====
section
/-! DEFINITION. The cycle of spec/40_cycle.md R62: fetch, decode, execute, countdown. -/

namespace Sys2Proof.Machine

open Sys2Proof

/-- The end of a cycle whose instruction has run (R62, R108): the timers count down, unless the instruction raised a
fault. -/
def finishCycle : Result → Result
  | .next t => .next (if t.halted then t else t.countdown)
  | .fault r => .fault r
  | .refused r => .refused r

/-- One cycle (R62): nothing while halted (R63), the fetch check (R64), the fetch and advance (R65), and then the
instruction (R66) or the report of an unrecognized word (R67). -/
def cycle (s : State) : Result :=
  if s.halted then .next s
  else if 0x0FFE < s.pc.toNat then
    .next (s.takeFault .fetchOutOfRange (BitVec.ofNat 17 s.pc.toNat) s.pc 0#16)
  else
    match decodeWord (s.mem.fetch16 s.pc.toNat) with
    | .ok i => finishCycle (exec i s.advance.clearReport)
    | .error _ => .next (s.advance.reportUnrecognized (s.mem.fetch16 s.pc.toNat) s.pc).countdown

/-- A unit that its next cycle can fetch for: not halted, and `pc` at two bytes of memory (R63, R64). Any other unit
is first given what a host gives it by `reset()`: a clear fault record, and `pc` at 0x200 (log entry 7). -/
def State.fetchable (s : State) : State :=
  if s.halted = true ∨ 0x0FFE < s.pc.toNat then { s with fault := .clear, pc := 0x200#16 } else s

/-- The unit with a word stored, big-endian, at the address its next cycle fetches from. -/
def State.withWordAtPc (s : State) (w : Word) : State :=
  s.fetchable.setMem (s.fetchable.mem.writeBytes s.fetchable.pc.toNat [hiByte w, loByte w])

end Sys2Proof.Machine
end

