-- ==== Sys2Proof/Machine/Step.lean ====
section
/-! DEFINITION. The step of the machine: one `step` request is one cycle (spec/40_cycle.md R61). -/

namespace Sys2Proof.Machine

open Sys2Proof

/-- One `step` performs exactly one cycle (R61). -/
def step (s : State) : Host.Outcome State Fault Refusal := cycle s

/-- The state with an instruction word, numbered as spec/opcode_table.json numbers it, stored where the next step
fetches: a stand-in for the host's ROM load of one word (R125; log entry 7). -/
def State.withFetchWord (s : State) (nbits w : Nat) : State :=
  s.withWordAtPc (BitVec.ofNat 16 (w % 2 ^ nbits))

end Sys2Proof.Machine
end

