-- ==== Sys2Proof/Machine/Ports.lean ====
section
/-! DEFINITION. The block's interface (spec/40_cycle.md R58, spec/70_reset_and_hazards.md R123 to R127): what the host
reads, and everything the host can do. The host acts only between cycles. `rand_byte` is the free value of log
entry 1, and `name(w)` is `nameOf` of Decode.lean. -/

namespace Sys2Proof.Machine

open Sys2Proof

/-! ## Outputs -/

/-- One exported pixel (R26). -/
def pixelWord (lit : Bool) : BitVec 32 := if lit then 0xFFFFFFFF#32 else 0#32

/-- `disp_out`: the 2048 pixel words, word `py*64 + px` for pixel (px, py) (R26, decision D26). -/
def State.dispOut (s : State) : List (BitVec 32) :=
  (List.range 2048).map fun k => pixelWord (s.disp.pixel (k % 64) (k / 64))

/-- `dt_out` (R58). -/
def State.dtOut (s : State) : Byte := s.dt

/-- `st_out` (R58). -/
def State.stOut (s : State) : Byte := s.st

/-- `sound_active` (R118). -/
def State.soundActive (s : State) : Bool := s.st != 0#8

/-- The `fault_code` port (R28); `halted` is `State.halted`, and the other fields are read as they stand. -/
def State.faultCodeOut (s : State) : BitVec 3 := s.fault.code.toBits

/-! ## What the host does -/

/-- Power-on with a given `FONT_ROM` (R123, decision D22): the state of `State.reset` with those 80 bytes at 0x050 to
0x09F. -/
def State.powerOn (font : Vector Byte 80) : State :=
  State.reset.setMem (State.reset.mem.writeBytes 0x050 font.toList)

/-- The input collaborator writes the keypad latch before a cycle (R24, R127). -/
def State.writeKeypad (s : State) (keys : BitVec 16) : State := { s with key := keys }

/-- What the host gets back from a ROM load (R125, R127). -/
inductive LoadResult where
  | loaded
  | refused
  deriving DecidableEq, Repr

/-- ROM load (R125): `reset()`, and then the bytes copied from 0x200 on, unless they are more than 3584 (decision D19).
`none` is a source the host cannot read, which loads as a zero-length one does (R106 (c)). -/
def State.romLoad (s : State) (source : Option (List Byte)) : LoadResult × State :=
  match source with
  | none => (.loaded, s.hostReset)
  | some bytes =>
    if 3584 < bytes.length then (.refused, s.hostReset)
    else (.loaded, s.hostReset.setMem (s.hostReset.mem.writeBytes 0x200 bytes))

/-- Everything the host can do to the state (R127). -/
inductive HostAction where
  /-- A `step` request. -/
  | step
  /-- A keypad write. -/
  | keypad (keys : BitVec 16)
  /-- `reset()`. -/
  | reset
  /-- A ROM load. -/
  | romLoad (source : Option (List Byte))
  deriving DecidableEq, Repr

/-- What a host action does. -/
def act (a : HostAction) (s : State) : Result :=
  match a with
  | .step => Sys2Proof.Machine.step s
  | .keypad keys => .next (s.writeKeypad keys)
  | .reset => .next s.hostReset
  | .romLoad source => .next (s.romLoad source).2

end Sys2Proof.Machine
end

