-- ==== Sys2Proof/Safety.lean ====
section
/-! DEFINITION. What claims about runs are stated in: the invariant of the machine, part by part, and the states that
a host can bring it to with the moves of spec/70_reset_and_hazards.md R127. -/

namespace Sys2Proof.Machine

open Sys2Proof

/-- The memory is in its canonical form (log entry 6). -/
abbrev State.MemoryOk (s : State) : Prop := s.mem.wf = true

/-- The fault record is coherent (R28, R107, R109, R110, R111): clear when no fault is latched; otherwise `fault_pc` is
the value `pc` still holds, `fault_opcode` is the word that lies there (0 for a fetch fault), `fault_info` is what
R107 says of that cause in the state as it still stands, and the report is clear. -/
abbrev State.RecordOk (s : State) : Prop :=
  (s.fault.code = .noFault → s.fault = .clear) ∧
  (s.fault.code ≠ .noFault → s.fault.pc = s.pc ∧ s.report = .clear) ∧
  (s.fault.code = .fetchOutOfRange →
    0x0FFE < s.pc.toNat ∧ s.fault.opcode = 0#16 ∧ s.fault.info.toNat = s.pc.toNat) ∧
  (s.fault.code ≠ .noFault → s.fault.code ≠ .fetchOutOfRange →
    s.pc.toNat ≤ 0x0FFE ∧ s.fault.opcode = s.mem.fetch16 s.pc.toNat) ∧
  (s.fault.code = .dataOutOfRange → s.fault.info.toNat = max s.index.toNat 0x1000) ∧
  (s.fault.code = .stackOverflow → s.fault.info.toNat = 16 ∧ s.sp.val = 16) ∧
  (s.fault.code = .stackUnderflow → s.fault.info.toNat = 0 ∧ s.sp.val = 0) ∧
  (s.fault.code = .keyIndexOutOfRange →
    0xF < s.fault.info.toNat ∧ s.fault.info.toNat = (s.reg (fieldX s.fault.opcode)).toNat)

/-- The unrecognized-opcode report is coherent (R29, R67): all 0 when it reports nothing; otherwise it names the word at
its address, which no tier matches, and `pc` is that address plus 2. -/
abbrev State.ReportOk (s : State) : Prop :=
  (s.report.unrecognized = false → s.report = .clear) ∧
  (s.report.unrecognized = true →
    s.report.pc.toNat ≤ 0x0FFE ∧ s.pc = s.report.pc + 2#16 ∧
    s.report.opcode = s.mem.fetch16 s.report.pc.toNat ∧
    decodeWord s.report.opcode = .error (.unrecognized s.report.opcode))

/-- The bounds of R20: no `pc` above 0x10FE, and no return address above 0x1000. -/
abbrev State.PcBounded (s : State) : Prop :=
  s.pc.toNat ≤ 0x10FE ∧ ∀ k : Fin 16, s.stack[k].toNat ≤ 0x1000

/-- The invariant of the machine. -/
abbrev State.Inv (s : State) : Prop :=
  s.MemoryOk ∧ s.RecordOk ∧ s.ReportOk ∧ s.PcBounded

/-- The states a host can bring the unit to (R127): power-on with any `FONT_ROM`, and any host action. -/
inductive Reachable : State → Prop where
  | powerOn (font : Vector Byte 80) : Reachable (State.powerOn font)
  | act {s t : State} (a : HostAction) (reached : Reachable s) (did : Sys2Proof.Machine.act a s = .next t) : Reachable t

end Sys2Proof.Machine
end

