-- ==== Sys2Proof/Certificates/Slice0/Obligations.lean ====
section
/-! DEFINITION. The statements for the provers. Each docstring names the rules of spec/ it formalises. A clause that
rests on a decision of spec/92_eei_decisions.md, which a numbered rule states, names the decision; a statement that
rests on an inference or on the model's own choice says so. -/

open Sys2Proof Sys2Proof.Machine

namespace Sys2Proof.Claims

/-- Every word with the row's fixed bits decodes to the row's instruction, with the fields `mk` takes from it. -/
def Encoded (mask key : Word) (mk : Word → Instr) : Prop :=
  ∀ w : Word, w &&& mask = key → decodeWord w = .ok (mk w)

/-- `t` is `s` with the value `r` in register `x`: every other register, and all the rest, is as before. -/
def WritesOnly (s t : State) (x : Reg) (r : Byte) : Prop :=
  t.reg x = r ∧ (∀ z, z ≠ x → t.reg z = s.reg z) ∧ t = { s with v := t.v }

/-- `t` is `s` with the value `r` in register `x` and the flag `f` in `VF`, unless `x` is `VF`, which then holds `r`
(R17): every other register, and all the rest, is as before. -/
def WritesFlagAnd (s t : State) (x : Reg) (f r : Nat) : Prop :=
  (t.reg x).toNat = r ∧ (x ≠ 0xF#4 → (t.reg 0xF#4).toNat = f) ∧
  (∀ z, z ≠ x → z ≠ 0xF#4 → t.reg z = s.reg z) ∧ t = { s with v := t.v }

/-- The state after a fault raised while an instruction executes, `pc` being its fetch address plus 2: the record
written, `pc` back at the fetch address, the report clear, and all the rest as before (R109, R110). -/
def afterFault (s : State) (code : FaultCode) (info : Nat) (w : Word) : State :=
  { s with
    pc := s.pc - 2#16
    fault := { code := code, pc := s.pc - 2#16, opcode := w, info := BitVec.ofNat 17 info }
    report := { unrecognized := false, opcode := 0#16, pc := 0#16 } }

/-- The word that the next cycle fetches: the byte at `pc` high, the byte at `pc + 1` low (R37). -/
def wordAtPc (s : State) : Word := s.mem.read s.pc.toNat ++ s.mem.read (s.pc.toNat + 1)

/-- No fault is latched, and `pc` points at two bytes of memory. -/
def CanFetch (s : State) : Prop := s.fault.code = .noFault ∧ s.pc.toNat ≤ 0x0FFE

/-- `countdown()` of one timer (R117). -/
def counted (t : Byte) : Byte := if t = 0#8 then 0#8 else t - 1#8

/-- An access of `c` bytes from `I` on reaches an address above 0xFFF (R41). -/
def Overruns (s : State) (c : Nat) : Prop := 0 < c ∧ 0xFFF < s.index.toNat + c - 1

/-- The sprite that `Dxyn` draws in `s` has a set bit on the pixel (px, py) (R105). -/
def Covers (s : State) (x y : Reg) (n : Nibble) (px py : Nat) : Prop :=
  (s.reg x).toNat % 64 ≤ px ∧ px < (s.reg x).toNat % 64 + 8 ∧
  (s.reg y).toNat % 32 ≤ py ∧ py < (s.reg y).toNat % 32 + n.toNat ∧
  (s.mem.read (s.index.toNat + (py - (s.reg y).toNat % 32))).getLsbD (7 - (px - (s.reg x).toNat % 64)) = true

/-- The registers that an instruction may write (R15, R16). -/
def mayWrite (i : Instr) (r : Reg) : Bool :=
  match i with
  | .ldImm x _ => r == x
  | .addImm x _ => r == x
  | .ldReg x _ => r == x
  | .orReg x _ => r == x
  | .andReg x _ => r == x
  | .xorReg x _ => r == x
  | .rnd x _ => r == x
  | .ldVxDt x => r == x
  | .ldVxK x => r == x
  | .addReg x _ => r == x || r == 0xF#4
  | .subReg x _ => r == x || r == 0xF#4
  | .shr x _ => r == x || r == 0xF#4
  | .subnReg x _ => r == x || r == 0xF#4
  | .shl x _ => r == x || r == 0xF#4
  | .drw _ _ _ => r == 0xF#4
  | .ldVxMem x => decide (r.toNat ≤ x.toNat)
  | _ => false

end Sys2Proof.Claims

open Sys2Proof.Claims

/-! ## Encoding -/

/-- Words written out from the encodings of R51 and the vectors of spec/95_test_vectors.md decode to the instructions
they stand for: one of every family, the aliases of R53, and the source's unrecognized `0x5551`. -/
def Obligations.WrittenWordsDecode : Prop :=
  decodeWord 0b0000000011100000#16 = .ok (.cls 0x0#4) ∧
  decodeWord 0b0000000111100000#16 = .ok (.cls 0x1#4) ∧
  decodeWord 0b0000010111101110#16 = .ok (.ret 0x5#4) ∧
  decodeWord 0b0001101010111100#16 = .ok (.jp 0xABC#12) ∧
  decodeWord 0b1011001100000000#16 = .ok (.jpV0 0x300#12) ∧
  decodeWord 0b0101101010110000#16 = .ok (.seReg 0xA#4 0xB#4) ∧
  decodeWord 0b1110001110100001#16 = .ok (.sknp 0x3#4) ∧
  decodeWord 0b0110101001011100#16 = .ok (.ldImm 0xA#4 0x5C#8) ∧
  decodeWord 0b1000101010110101#16 = .ok (.subReg 0xA#4 0xB#4) ∧
  decodeWord 0b1000101010111110#16 = .ok (.shl 0xA#4 0xB#4) ∧
  decodeWord 0b1100101000001111#16 = .ok (.rnd 0xA#4 0x0F#8) ∧
  decodeWord 0b1101000100100001#16 = .ok (.drw 0x1#4 0x2#4 0x1#4) ∧
  decodeWord 0b1010001011110000#16 = .ok (.ldI 0x2F0#12) ∧
  decodeWord 0b1111010100001010#16 = .ok (.ldVxK 0x5#4) ∧
  decodeWord 0b1111001001010101#16 = .ok (.ldMemVx 0x2#4) ∧
  decodeWord 0b0101010101010001#16 = .error (.unrecognized 0x5551#16)

/-- Section 5 of spec/30_encoding.md (R54, R55): the unrecognized words are exactly the six classes it lists. The list
is the spec's own inference. -/
def Obligations.UnrecognizedWordsAreExactlyTheListedOnes : Prop :=
  ∀ w : Word, decodeWord w = .error (.unrecognized w) ↔
    (let top := w.extractLsb' 12 4
     let low := w.extractLsb' 0 8
     let n := w.extractLsb' 0 4
     (top = 0x0#4 ∧ low ≠ 0xE0#8 ∧ low ≠ 0xEE#8) ∨
     (top = 0x5#4 ∧ n ≠ 0x0#4) ∨
     (top = 0x8#4 ∧ (n = 0x8#4 ∨ n = 0x9#4 ∨ n = 0xA#4 ∨ n = 0xB#4 ∨ n = 0xC#4 ∨ n = 0xD#4 ∨ n = 0xF#4)) ∨
     (top = 0x9#4 ∧ n ≠ 0x0#4) ∨
     (top = 0xE#4 ∧ low ≠ 0x9E#8 ∧ low ≠ 0xA1#8) ∨
     (top = 0xF#4 ∧ low ≠ 0x07#8 ∧ low ≠ 0x0A#8 ∧ low ≠ 0x15#8 ∧ low ≠ 0x18#8 ∧ low ≠ 0x1E#8 ∧ low ≠ 0x29#8 ∧
       low ≠ 0x33#8 ∧ low ≠ 0x55#8 ∧ low ≠ 0x65#8))

/-- Every instruction, with every operand at every value of its field, is decoded from its own word and from its two
bytes, whatever bytes follow (R36, R47, R48, R50). -/
def Obligations.DecodingAnEncodedInstructionGivesItBack : Prop :=
  ∀ (i : Instr) (rest : List Byte),
    decodeWord (encode i) = .ok i ∧ decode (encodeBytes i ++ rest) = .ok (i, rest)

/-- Every word that decodes is the word its instruction is encoded to: no bit of a recognized word is lost, so the
`fault_opcode` that the model writes is the word that was fetched (log entry 4). -/
def Obligations.EncodingADecodedWordGivesItBack : Prop :=
  ∀ (w : Word) (i : Instr), decodeWord w = .ok i → encode i = w

/-- R56: a well-formed written line is assembled to a word that decodes to the instruction it stands for, and an
instruction as it is written is well formed and stands for an instruction of the same tag and operands, its unwritten
nibble 0. The operand forms are those of log entry 10. -/
def Obligations.AssembledLinesDecodeToWhatTheyStandFor : Prop :=
  (∀ (l : AsmLine) (i : Instr), l.toInstr = some i →
    ∃ w, l.assemble = some w ∧ decodeWord w = .ok i) ∧
  ∀ i : Instr, ∃ w, i.toAsm.assemble = some w ∧
    (w = encode i ∨ (w = 0x00E0#16 ∧ ∃ x, i = .cls x) ∨ (w = 0x00EE#16 ∧ ∃ x, i = .ret x))

/-- R57, with R56's mnemonics: the debug lookup of every word. That the string is the mnemonic without its operands is
log entry 10. -/
def Obligations.NameLookupGivesTheMnemonic : Prop :=
  ∀ w : Word,
    (w &&& 0xF0FF#16 = 0x00E0#16 → nameOf w = "CLS") ∧ (w &&& 0xF0FF#16 = 0x00EE#16 → nameOf w = "RET") ∧
    (w &&& 0xF000#16 = 0x1000#16 → nameOf w = "JP") ∧ (w &&& 0xF000#16 = 0x2000#16 → nameOf w = "CALL") ∧
    (w &&& 0xF000#16 = 0x3000#16 → nameOf w = "SE") ∧ (w &&& 0xF000#16 = 0x4000#16 → nameOf w = "SNE") ∧
    (w &&& 0xF00F#16 = 0x5000#16 → nameOf w = "SE") ∧ (w &&& 0xF000#16 = 0x6000#16 → nameOf w = "LD") ∧
    (w &&& 0xF000#16 = 0x7000#16 → nameOf w = "ADD") ∧ (w &&& 0xF00F#16 = 0x8000#16 → nameOf w = "LD") ∧
    (w &&& 0xF00F#16 = 0x8001#16 → nameOf w = "OR") ∧ (w &&& 0xF00F#16 = 0x8002#16 → nameOf w = "AND") ∧
    (w &&& 0xF00F#16 = 0x8003#16 → nameOf w = "XOR") ∧ (w &&& 0xF00F#16 = 0x8004#16 → nameOf w = "ADD") ∧
    (w &&& 0xF00F#16 = 0x8005#16 → nameOf w = "SUB") ∧ (w &&& 0xF00F#16 = 0x8006#16 → nameOf w = "SHR") ∧
    (w &&& 0xF00F#16 = 0x8007#16 → nameOf w = "SUBN") ∧ (w &&& 0xF00F#16 = 0x800E#16 → nameOf w = "SHL") ∧
    (w &&& 0xF00F#16 = 0x9000#16 → nameOf w = "SNE") ∧ (w &&& 0xF000#16 = 0xA000#16 → nameOf w = "LD") ∧
    (w &&& 0xF000#16 = 0xB000#16 → nameOf w = "JP") ∧ (w &&& 0xF000#16 = 0xC000#16 → nameOf w = "RND") ∧
    (w &&& 0xF000#16 = 0xD000#16 → nameOf w = "DRW") ∧ (w &&& 0xF0FF#16 = 0xE09E#16 → nameOf w = "SKP") ∧
    (w &&& 0xF0FF#16 = 0xE0A1#16 → nameOf w = "SKNP") ∧
    (∀ sub ∈ [0xF007#16, 0xF00A#16, 0xF015#16, 0xF018#16, 0xF029#16, 0xF033#16, 0xF055#16, 0xF065#16],
      w &&& 0xF0FF#16 = sub → nameOf w = "LD") ∧
    (w &&& 0xF0FF#16 = 0xF01E#16 → nameOf w = "ADD") ∧
    (decodeWord w = .error (.unrecognized w) → nameOf w = "UNKNOWN")

/-! ## The cycle -/

/-- R65, R66: when the two bytes at `pc` decode to an instruction, the step is that instruction's meaning on the state
with `pc` advanced by 2 and the report cleared (R29), followed by the countdown unless it raised a fault (R108,
R117). -/
def Obligations.StepRunsTheDecodedInstruction : Prop :=
  ∀ (s u : State) (i : Instr), CanFetch s → decodeWord (wordAtPc s) = .ok i →
    exec i { s with pc := s.pc + 2#16, report := { unrecognized := false, opcode := 0#16, pc := 0#16 } } = .next u →
    (u.fault.code = .noFault → step s = .next { u with dt := counted u.dt, st := counted u.st }) ∧
    (u.fault.code ≠ .noFault → step s = .next u)

/-- R67, R113 (decision D9): an unrecognized word changes `pc`, the report and the timers, and nothing else. -/
def Obligations.UnrecognizedWordIsReportedAndPassedOver : Prop :=
  ∀ s : State, CanFetch s → decodeWord (wordAtPc s) = .error (.unrecognized (wordAtPc s)) →
    step s = .next
      { s with
        pc := s.pc + 2#16
        report := { unrecognized := true, opcode := wordAtPc s, pc := s.pc }
        dt := counted s.dt
        st := counted s.st }

/-- R63, R112 (decisions D7, D32): a step of a halted unit changes nothing, and of the host's actions only `reset()` and
a ROM load leave that state, with `pc` at 0x200. -/
def Obligations.HaltedUnitStaysUntilReset : Prop :=
  ∀ s : State, s.fault.code ≠ .noFault →
    step s = .next s ∧
    ∀ (a : HostAction) (t : State), act a s = .next t → t.fault.code = .noFault →
      (a = .reset ∨ ∃ source, a = .romLoad source) ∧ t.pc = 0x200#16

/-- R64 (decisions D3, D31): a fetch above 0x0FFE writes the fault record, and changes nothing else but the report. -/
def Obligations.FetchAboveMemoryFaults : Prop :=
  ∀ s : State, s.fault.code = .noFault → 0x0FFE < s.pc.toNat →
    step s = .next
      { s with
        fault := { code := .fetchOutOfRange, pc := s.pc, opcode := 0#16, info := s.pc.setWidth 17 }
        report := { unrecognized := false, opcode := 0#16, pc := 0#16 } }

/-- R109, R110 (decision D7): a faulting cycle commits none of its own effects. The state after it is the state before
it with the record written and the report cleared; `fault_pc` is the fetch address, and `fault_opcode` the fetched
word, or 0 for a fetch fault; the unit is halted. -/
def Obligations.FaultsArePrecise : Prop :=
  ∀ s t : State, s.fault.code = .noFault → step s = .next t → t.fault.code ≠ .noFault →
    t = { s with fault := t.fault, report := { unrecognized := false, opcode := 0#16, pc := 0#16 } } ∧
    t.fault.pc = s.pc ∧
    (t.fault.code = .fetchOutOfRange → t.fault.opcode = 0#16) ∧
    (t.fault.code ≠ .fetchOutOfRange → t.fault.opcode = wordAtPc s) ∧
    t.halted = true

/-- R107 (decisions D3 to D8): each fault is raised exactly on its cause, and `fault_info` is what the table says. -/
def Obligations.FaultsAreRaisedExactlyOnTheirCauses : Prop :=
  ∀ s t : State, s.fault.code = .noFault → step s = .next t →
    (t.fault.code = .fetchOutOfRange ↔ 0x0FFE < s.pc.toNat) ∧
    (t.fault.code = .dataOutOfRange ↔ s.pc.toNat ≤ 0x0FFE ∧
      ((∃ x y n, decodeWord (wordAtPc s) = .ok (.drw x y n) ∧ Overruns s n.toNat) ∨
       (∃ x, decodeWord (wordAtPc s) = .ok (.ldBVx x) ∧ Overruns s 3) ∨
       (∃ x, decodeWord (wordAtPc s) = .ok (.ldMemVx x) ∧ Overruns s (x.toNat + 1)) ∨
       (∃ x, decodeWord (wordAtPc s) = .ok (.ldVxMem x) ∧ Overruns s (x.toNat + 1)))) ∧
    (t.fault.code = .stackOverflow ↔ s.pc.toNat ≤ 0x0FFE ∧ s.sp.val = 16 ∧
      ∃ nnn, decodeWord (wordAtPc s) = .ok (.call nnn)) ∧
    (t.fault.code = .stackUnderflow ↔ s.pc.toNat ≤ 0x0FFE ∧ s.sp.val = 0 ∧
      ∃ x, decodeWord (wordAtPc s) = .ok (.ret x)) ∧
    (t.fault.code = .keyIndexOutOfRange ↔ s.pc.toNat ≤ 0x0FFE ∧
      ∃ x, (decodeWord (wordAtPc s) = .ok (.skp x) ∨ decodeWord (wordAtPc s) = .ok (.sknp x)) ∧
        0xF < (s.reg x).toNat) ∧
    (t.fault.code = .fetchOutOfRange → t.fault.info.toNat = s.pc.toNat) ∧
    (t.fault.code = .dataOutOfRange → t.fault.info.toNat = max s.index.toNat 0x1000) ∧
    (t.fault.code = .stackOverflow → t.fault.info.toNat = 16) ∧
    (t.fault.code = .stackUnderflow → t.fault.info.toNat = 0) ∧
    (t.fault.code = .keyIndexOutOfRange →
      ∃ x, (decodeWord (wordAtPc s) = .ok (.skp x) ∨ decodeWord (wordAtPc s) = .ok (.sknp x)) ∧
        t.fault.info.toNat = (s.reg x).toNat)

/-- Every step of every state answers a next state: the model stops for no fault of the hardware and refuses no word
(R55, R61, R63; log entry 5). -/
def Obligations.EveryStepAnswersANextState : Prop :=
  ∀ s : State, ∃ t, step s = .next t

/-- R117: each timer of a completed cycle is what the cycle's instruction left, counted down once; no cycle but one of
`Fx15` or `Fx18` leaves another value to count; and a cycle that faults, or finds the unit halted, does not count. -/
def Obligations.EveryCompletedCycleCountsTheTimersDown : Prop :=
  ∀ s t : State, step s = .next t →
    (s.fault.code = .noFault → t.fault.code = .noFault →
      ((∀ x, decodeWord (wordAtPc s) ≠ .ok (.ldDtVx x)) → t.dt = counted s.dt) ∧
      (∀ x, decodeWord (wordAtPc s) = .ok (.ldDtVx x) → t.dt = counted (s.reg x)) ∧
      ((∀ x, decodeWord (wordAtPc s) ≠ .ok (.ldStVx x)) → t.st = counted s.st) ∧
      (∀ x, decodeWord (wordAtPc s) = .ok (.ldStVx x) → t.st = counted (s.reg x))) ∧
    (t.fault.code ≠ .noFault → t.dt = s.dt ∧ t.st = s.st)

/-! ## Whole-machine rules -/

/-- Section 2 and 3 of spec/10_state.md (R15, R16): a step changes no general register but those that R15 and R16 let
its instruction write; a step that runs no instruction changes none. -/
def Obligations.OnlyTheListedInstructionsWriteRegisters : Prop :=
  ∀ (s t : State) (r : Reg), step s = .next t → t.reg r ≠ s.reg r →
    ∃ i, decodeWord (wordAtPc s) = .ok i ∧ mayWrite i r = true

/-- The column 'writable by' of R13 (R18, R21, R22, R24, R25, R32): a step never changes the keypad latch, and changes
`I`, the stack, `sp`, the display and memory only when it runs an instruction that the column names. -/
def Obligations.StateIsWrittenOnlyByItsWriters : Prop :=
  ∀ s t : State, step s = .next t →
    t.key = s.key ∧
    (t.index ≠ s.index →
      (∃ nnn, decodeWord (wordAtPc s) = .ok (.ldI nnn)) ∨ (∃ x, decodeWord (wordAtPc s) = .ok (.addIVx x)) ∨
      (∃ x, decodeWord (wordAtPc s) = .ok (.ldFVx x))) ∧
    (t.stack ≠ s.stack → ∃ nnn, decodeWord (wordAtPc s) = .ok (.call nnn)) ∧
    (t.sp ≠ s.sp →
      (∃ nnn, decodeWord (wordAtPc s) = .ok (.call nnn)) ∨ (∃ x, decodeWord (wordAtPc s) = .ok (.ret x))) ∧
    (t.disp ≠ s.disp →
      (∃ x, decodeWord (wordAtPc s) = .ok (.cls x)) ∨ (∃ x y n, decodeWord (wordAtPc s) = .ok (.drw x y n))) ∧
    (t.mem ≠ s.mem →
      (∃ x, decodeWord (wordAtPc s) = .ok (.ldBVx x)) ∨ (∃ x, decodeWord (wordAtPc s) = .ok (.ldMemVx x)))

/-- Section 2 of spec/70_reset_and_hazards.md (R128): a jump to itself, and `Fx0A` with no key held, change only the
timers and the report, and leave the unit at the same instruction. -/
def Obligations.SpinningChangesOnlyTimersAndReport : Prop :=
  ∀ s : State, CanFetch s →
    (∀ nnn : Addr, decodeWord (wordAtPc s) = .ok (.jp nnn) → nnn.toNat = s.pc.toNat →
      step s = .next
        { s with
          dt := counted s.dt
          st := counted s.st
          report := { unrecognized := false, opcode := 0#16, pc := 0#16 } }) ∧
    (∀ x : Reg, decodeWord (wordAtPc s) = .ok (.ldVxK x) → s.key = 0#16 →
      step s = .next
        { s with
          dt := counted s.dt
          st := counted s.st
          report := { unrecognized := false, opcode := 0#16, pc := 0#16 } })

/-- The invariant holds of the state after reset: power-on (R123) with the default `FONT_ROM`, whose bytes are presumed (log
entry 2). The canonical form of memory is the model's choice of log entry 6, and the bounds of R20 are the spec's own
inference. -/
def Obligations.ResetMeetsTheInvariant : Prop := State.reset.Inv

/-- Every step keeps the invariant: the canonical form of memory (log entry 6), the coherence of the fault record (R28,
R107 to R111) and of the unrecognized-opcode report (R29, R67), and the bounds of R20, which the spec infers. -/
def Obligations.EveryStepKeepsTheInvariant : Prop :=
  ∀ s t : State, s.Inv → step s = .next t → t.Inv

/-- Every state that a host can bring the unit to meets the invariant: power-on with any `FONT_ROM`, and then any
sequence of the moves of R127. The canonical form of memory is the model's choice of log entry 6, that each move of the
host is a transition between steps is log entry 9, and the bounds of R20 are the spec's own inference. -/
def Obligations.EveryReachableStateMeetsTheInvariant : Prop :=
  ∀ s : State, Reachable s → s.Inv

/-- Canonical memories that read alike are equal: the list of cells holds nothing but what the memory reads as
(log entry 6). -/
def Obligations.CanonicalMemoriesThatReadAlikeAreEqual : Prop :=
  ∀ m n : Memory, m.wf = true → n.wf = true → (∀ a, a < 4096 → m.read a = n.read a) → m = n

/-! ## The host -/

/-- R123 (decisions D17, D22): power-on, for every `FONT_ROM`. The font is at 0x050 to 0x09F and every other byte of the
4096 is 0; every other field has its power-on value; and `reset()` does not reload the font. -/
def Obligations.PowerOnGivesTheListedValues : Prop :=
  (∀ font : Vector Byte 80,
    (State.powerOn font).pc = 0x200#16 ∧
    (∀ r, (State.powerOn font).reg r = 0#8) ∧
    (State.powerOn font).index = 0#16 ∧
    (State.powerOn font).sp.val = 0 ∧
    (∀ k : Fin 16, (State.powerOn font).stack[k] = 0#16) ∧
    (State.powerOn font).dt = 0#8 ∧ (State.powerOn font).st = 0#8 ∧
    (∀ k : Fin 16, (State.powerOn font).key[k] = false) ∧
    (∀ px py, px < 64 → py < 32 → (State.powerOn font).disp.pixel px py = false) ∧
    (∀ j : Fin 80, (State.powerOn font).mem.read (0x050 + j.val) = font[j]) ∧
    (∀ a, a < 4096 → a < 0x050 ∨ 0x09F < a → (State.powerOn font).mem.read a = 0#8) ∧
    (State.powerOn font).fault = { code := .noFault, pc := 0#16, opcode := 0#16, info := 0#17 } ∧
    (State.powerOn font).halted = false ∧
    (State.powerOn font).report = { unrecognized := false, opcode := 0#16, pc := 0#16 }) ∧
  (∀ s : State, s.hostReset.mem = s.mem)

/-- R124 (decision D18): `reset()` re-initializes `pc`, `I`, `sp` and the timers, clears the fault record and the
report, and leaves every other field. -/
def Obligations.HostResetWritesTheListedFields : Prop :=
  ∀ s : State, act .reset s = .next
    { s with
      pc := 0x0200#16
      index := 0x0000#16
      sp := 0
      dt := 0x00#8
      st := 0x00#8
      fault := { code := .noFault, pc := 0#16, opcode := 0#16, info := 0#17 }
      report := { unrecognized := false, opcode := 0#16, pc := 0#16 } }

/-- R125 (decisions D19, D35): a ROM load is `reset()`, and then, unless the image has more than 3584 bytes, its bytes
copied from 0x200 on; every other byte keeps its contents. A zero-length or unreadable source performs only
`reset()`, and an oversize one is refused after it. -/
def Obligations.RomLoadResetsAndCopies : Prop :=
  ∀ s : State,
    (∀ bytes : List Byte, bytes.length ≤ 3584 →
      ∃ t, s.romLoad (some bytes) = (.loaded, t) ∧ t = { s.hostReset with mem := t.mem } ∧
        (∀ k : Fin bytes.length, t.mem.read (0x200 + k.val) = bytes[k]) ∧
        (∀ a, a < 0x200 ∨ 0x200 + bytes.length ≤ a → t.mem.read a = s.mem.read a)) ∧
    (∀ bytes : List Byte, 3584 < bytes.length → s.romLoad (some bytes) = (.refused, s.hostReset)) ∧
    s.romLoad (some []) = (.loaded, s.hostReset) ∧
    s.romLoad none = (.loaded, s.hostReset) ∧
    ∀ source, act (.romLoad source) s = .next (s.romLoad source).2

/-- Section 2 of spec/70_reset_and_hazards.md (R127, R24): a keypad write touches the latch only. -/
def Obligations.KeypadWriteTouchesOnlyTheLatch : Prop :=
  ∀ (s : State) (keys : BitVec 16), act (.keypad keys) s = .next { s with key := keys }

/-- R26 (decision D26): the display export has 2048 words, row-major, 0xFFFFFFFF for a lit pixel and 0 for an unlit
one. -/
def Obligations.DisplayExportIsRowMajor : Prop :=
  ∀ s : State, s.dispOut.length = 2048 ∧
    ∀ px py, px < 64 → py < 32 →
      s.dispOut[py * 64 + px]? = some (if s.disp.pixel px py then 0xFFFFFFFF#32 else 0x00000000#32)

/-- R118 (decision D30) and R28 (decisions D7, D8): `sound_active` is 1 exactly when `ST` is not 0; `halted` is 1
exactly when the `fault_code` port is not 0; and the port gives each cause its code. -/
def Obligations.StatusPortsFollowTheState : Prop :=
  ∀ s : State,
    (s.soundActive = true ↔ s.stOut ≠ 0#8) ∧ s.stOut = s.st ∧ s.dtOut = s.dt ∧
    (s.halted = true ↔ s.faultCodeOut ≠ 0#3) ∧
    (s.faultCodeOut = 0#3 ↔ s.fault.code = .noFault) ∧
    (s.faultCodeOut = 1#3 ↔ s.fault.code = .fetchOutOfRange) ∧
    (s.faultCodeOut = 2#3 ↔ s.fault.code = .dataOutOfRange) ∧
    (s.faultCodeOut = 3#3 ↔ s.fault.code = .stackOverflow) ∧
    (s.faultCodeOut = 4#3 ↔ s.fault.code = .stackUnderflow) ∧
    (s.faultCodeOut = 5#3 ↔ s.fault.code = .keyIndexOutOfRange) ∧
    s.faultCodeOut ≠ 6#3 ∧ s.faultCodeOut ≠ 7#3

/-! ## Control transfer -/

/-- R70 (decision D5): `00EE`, with its alias encodings, its fault and its effect. The popped entry is not cleared. -/
def Obligations.RetPopsThePc : Prop :=
  Encoded 0xF0FF#16 0x00EE#16 (fun w => .ret (w.extractLsb' 8 4)) ∧
  ∀ (s : State) (x : Nibble),
    (s.sp.val = 0 → exec (.ret x) s = .next (afterFault s .stackUnderflow 0 (0x0#4 ++ x ++ 0xEE#8))) ∧
    ∀ k : Fin 16, s.sp.val = k.val + 1 →
      exec (.ret x) s = .next { s with sp := k.castSucc, pc := s.stack[k] }

/-- R71 and R73: the jumps write `pc`, and nothing else. -/
def Obligations.JumpsWriteThePc : Prop :=
  Encoded 0xF000#16 0x1000#16 (fun w => .jp (w.extractLsb' 0 12)) ∧
  Encoded 0xF000#16 0xB000#16 (fun w => .jpV0 (w.extractLsb' 0 12)) ∧
  ∀ (s : State) (nnn : Addr),
    exec (.jp nnn) s = .next { s with pc := nnn.setWidth 16 } ∧
    ∃ t, exec (.jpV0 nnn) s = .next t ∧ t.pc.toNat = (s.reg 0x0#4).toNat + nnn.toNat ∧ t = { s with pc := t.pc }

/-- R72 (decision D5): `2nnn` pushes the advanced `pc` and jumps; at `sp = 16` it raises STACK_OVERFLOW and changes
nothing. -/
def Obligations.CallPushesTheReturnAddress : Prop :=
  Encoded 0xF000#16 0x2000#16 (fun w => .call (w.extractLsb' 0 12)) ∧
  ∀ (s : State) (nnn : Addr),
    (s.sp.val = 16 → exec (.call nnn) s = .next (afterFault s .stackOverflow 16 (0x2#4 ++ nnn))) ∧
    ∀ k : Fin 16, s.sp.val = k.val →
      exec (.call nnn) s = .next
        { s with stack := s.stack.set k.val s.pc, sp := k.succ, pc := nnn.setWidth 16 }

/-- The source's round trip (R72's example, spec/95_test_vectors.md S5): after a call, a return from any later state with
the same stack and `sp` restores the `pc` after the call and the `sp` before it. -/
def Obligations.ReturnGoesBackBehindTheCall : Prop :=
  ∀ (s : State) (nnn : Addr) (x : Nibble), s.sp.val < 16 →
    ∃ u, exec (.call nnn) s = .next u ∧
      ∀ later : State, later.stack = u.stack → later.sp = u.sp →
        ∃ t, exec (.ret x) later = .next t ∧ t.pc = s.pc ∧ t.sp = s.sp ∧ t = { later with pc := t.pc, sp := t.sp }

/-! ## Conditional skips -/

/-- R75, R76, R77, R78, with R74's skip: a taken skip adds 2 to the advanced `pc`; nothing else changes. A word `5xyN` or
`9xyN` with N other than 0 is unrecognized. -/
def Obligations.SkipsOnValuesMoveOnlyThePc : Prop :=
  Encoded 0xF000#16 0x3000#16 (fun w => .seImm (w.extractLsb' 8 4) (w.extractLsb' 0 8)) ∧
  Encoded 0xF000#16 0x4000#16 (fun w => .sneImm (w.extractLsb' 8 4) (w.extractLsb' 0 8)) ∧
  Encoded 0xF00F#16 0x5000#16 (fun w => .seReg (w.extractLsb' 8 4) (w.extractLsb' 4 4)) ∧
  Encoded 0xF00F#16 0x9000#16 (fun w => .sneReg (w.extractLsb' 8 4) (w.extractLsb' 4 4)) ∧
  (∀ w : Word, w &&& 0xF000#16 = 0x5000#16 ∨ w &&& 0xF000#16 = 0x9000#16 → w.extractLsb' 0 4 ≠ 0x0#4 →
    decodeWord w = .error (.unrecognized w)) ∧
  ∀ (s : State) (x y : Reg) (kk : Byte),
    exec (.seImm x kk) s = .next { s with pc := if s.reg x = kk then s.pc + 2#16 else s.pc } ∧
    exec (.sneImm x kk) s = .next { s with pc := if s.reg x = kk then s.pc else s.pc + 2#16 } ∧
    exec (.seReg x y) s = .next { s with pc := if s.reg x = s.reg y then s.pc + 2#16 else s.pc } ∧
    exec (.sneReg x y) s = .next { s with pc := if s.reg x = s.reg y then s.pc else s.pc + 2#16 }

/-- R79, R80 (decision D6): the skips on a key read the latch at the index `Vx`, and fault on an index above 0xF. -/
def Obligations.SkipsOnKeysReadTheLatch : Prop :=
  Encoded 0xF0FF#16 0xE09E#16 (fun w => .skp (w.extractLsb' 8 4)) ∧
  Encoded 0xF0FF#16 0xE0A1#16 (fun w => .sknp (w.extractLsb' 8 4)) ∧
  ∀ (s : State) (x : Reg),
    (0xF < (s.reg x).toNat →
      exec (.skp x) s = .next (afterFault s .keyIndexOutOfRange (s.reg x).toNat (0xE#4 ++ x ++ 0x9E#8)) ∧
      exec (.sknp x) s = .next (afterFault s .keyIndexOutOfRange (s.reg x).toNat (0xE#4 ++ x ++ 0xA1#8))) ∧
    ∀ k : Fin 16, (s.reg x).toNat = k.val →
      exec (.skp x) s = .next { s with pc := if s.key[k] = true then s.pc + 2#16 else s.pc } ∧
      exec (.sknp x) s = .next { s with pc := if s.key[k] = true then s.pc else s.pc + 2#16 }

/-! ## Registers and ALU -/

/-- R82, R83, R84: the loads and the immediate add write `Vx`, and nothing else: no flag. -/
def Obligations.LoadsAndImmediateAddWriteOnlyVx : Prop :=
  Encoded 0xF000#16 0x6000#16 (fun w => .ldImm (w.extractLsb' 8 4) (w.extractLsb' 0 8)) ∧
  Encoded 0xF000#16 0x7000#16 (fun w => .addImm (w.extractLsb' 8 4) (w.extractLsb' 0 8)) ∧
  Encoded 0xF00F#16 0x8000#16 (fun w => .ldReg (w.extractLsb' 8 4) (w.extractLsb' 4 4)) ∧
  ∀ (s : State) (x y : Reg) (kk : Byte),
    (∃ t, exec (.ldImm x kk) s = .next t ∧ WritesOnly s t x kk) ∧
    (∃ t, exec (.addImm x kk) s = .next t ∧ WritesOnly s t x (BitVec.ofNat 8 (((s.reg x).toNat + kk.toNat) % 256))) ∧
    (∃ t, exec (.ldReg x y) s = .next t ∧ WritesOnly s t x (s.reg y))

/-- R85, R86, R87: the logic operations write `Vx`, bit by bit, and nothing else: no flag. -/
def Obligations.LogicWritesOnlyVx : Prop :=
  Encoded 0xF00F#16 0x8001#16 (fun w => .orReg (w.extractLsb' 8 4) (w.extractLsb' 4 4)) ∧
  Encoded 0xF00F#16 0x8002#16 (fun w => .andReg (w.extractLsb' 8 4) (w.extractLsb' 4 4)) ∧
  Encoded 0xF00F#16 0x8003#16 (fun w => .xorReg (w.extractLsb' 8 4) (w.extractLsb' 4 4)) ∧
  ∀ (s : State) (x y : Reg),
    (∃ t, exec (.orReg x y) s = .next t ∧ WritesOnly s t x (t.reg x) ∧
      ∀ k : Fin 8, (t.reg x)[k] = ((s.reg x)[k] || (s.reg y)[k])) ∧
    (∃ t, exec (.andReg x y) s = .next t ∧ WritesOnly s t x (t.reg x) ∧
      ∀ k : Fin 8, (t.reg x)[k] = ((s.reg x)[k] && (s.reg y)[k])) ∧
    (∃ t, exec (.xorReg x y) s = .next t ∧ WritesOnly s t x (t.reg x) ∧
      ∀ k : Fin 8, (t.reg x)[k] = ((s.reg x)[k] ^^ (s.reg y)[k]))

/-- R88, with R17's order of writes: `8xy4`. -/
def Obligations.AddWritesSumAndCarry : Prop :=
  Encoded 0xF00F#16 0x8004#16 (fun w => .addReg (w.extractLsb' 8 4) (w.extractLsb' 4 4)) ∧
  ∀ (s : State) (x y : Reg),
    ∃ t, exec (.addReg x y) s = .next t ∧
      WritesFlagAnd s t x (if (s.reg x).toNat + (s.reg y).toNat > 255 then 1 else 0)
        (((s.reg x).toNat + (s.reg y).toNat) % 256)

/-- R89, R91, with R17's order of writes: `8xy5` and `8xy7`; equality gives the flag 0. -/
def Obligations.SubtractsWriteDifferenceAndStrictComparison : Prop :=
  Encoded 0xF00F#16 0x8005#16 (fun w => .subReg (w.extractLsb' 8 4) (w.extractLsb' 4 4)) ∧
  Encoded 0xF00F#16 0x8007#16 (fun w => .subnReg (w.extractLsb' 8 4) (w.extractLsb' 4 4)) ∧
  ∀ (s : State) (x y : Reg),
    (∃ t, exec (.subReg x y) s = .next t ∧
      WritesFlagAnd s t x (if (s.reg x).toNat > (s.reg y).toNat then 1 else 0)
        (((s.reg x).toNat + 256 - (s.reg y).toNat) % 256)) ∧
    (∃ t, exec (.subnReg x y) s = .next t ∧
      WritesFlagAnd s t x (if (s.reg y).toNat > (s.reg x).toNat then 1 else 0)
        (((s.reg y).toNat + 256 - (s.reg x).toNat) % 256))

/-- R90, R92, with R17's order of writes: `8xy6` and `8xyE` shift `Vx` by 1, whatever `y` is. -/
def Obligations.ShiftsMoveVxByOne : Prop :=
  Encoded 0xF00F#16 0x8006#16 (fun w => .shr (w.extractLsb' 8 4) (w.extractLsb' 4 4)) ∧
  Encoded 0xF00F#16 0x800E#16 (fun w => .shl (w.extractLsb' 8 4) (w.extractLsb' 4 4)) ∧
  ∀ (s : State) (x y : Reg),
    (∃ t, exec (.shr x y) s = .next t ∧
      WritesFlagAnd s t x ((s.reg x).toNat % 2) ((s.reg x).toNat / 2)) ∧
    (∃ t, exec (.shl x y) s = .next t ∧
      WritesFlagAnd s t x ((s.reg x).toNat / 128) ((s.reg x).toNat * 2 % 256))

/-- R93 (decision D20): `Cxkk` writes the masked draw to `Vx`, whatever the draw is, and the next execution takes
another draw. The draw is the free value of log entry 1 and `draws` is the model's own counter, of which no value is
used. -/
def Obligations.RandomWritesTheMaskedDraw : Prop :=
  Encoded 0xF000#16 0xC000#16 (fun w => .rnd (w.extractLsb' 8 4) (w.extractLsb' 0 8)) ∧
  ∀ (s : State) (x : Reg) (kk : Byte),
    ∃ t, exec (.rnd x kk) s = .next t ∧
      (∀ k : Fin 8, (t.reg x)[k] = ((Config.randByte s.draws)[k] && kk[k])) ∧
      (∀ z, z ≠ x → t.reg z = s.reg z) ∧ t.draws = s.draws + 1 ∧
      t = { s with v := t.v, draws := t.draws }

/-! ## Index register and memory -/

/-- R94, R95 (decision D13), R96: the three writers of `I` write it, and nothing else: no flag and no fault. -/
def Obligations.IndexLoadsWriteOnlyI : Prop :=
  Encoded 0xF000#16 0xA000#16 (fun w => .ldI (w.extractLsb' 0 12)) ∧
  Encoded 0xF0FF#16 0xF01E#16 (fun w => .addIVx (w.extractLsb' 8 4)) ∧
  Encoded 0xF0FF#16 0xF029#16 (fun w => .ldFVx (w.extractLsb' 8 4)) ∧
  ∀ (s : State) (x : Reg) (nnn : Addr),
    (∃ t, exec (.ldI nnn) s = .next t ∧ t.index.toNat = nnn.toNat ∧ t = { s with index := t.index }) ∧
    (∃ t, exec (.addIVx x) s = .next t ∧ t.index.toNat = (s.index.toNat + (s.reg x).toNat) % 65536 ∧
      t = { s with index := t.index }) ∧
    (∃ t, exec (.ldFVx x) s = .next t ∧ t.index.toNat = 0x050 + 5 * (s.reg x).toNat ∧ t = { s with index := t.index })

/-- R97 (decision D4): `Fx33` stores the three digits at `I`, `I + 1`, `I + 2` and changes nothing else, or faults before
any write. -/
def Obligations.BcdStoresThreeDigits : Prop :=
  Encoded 0xF0FF#16 0xF033#16 (fun w => .ldBVx (w.extractLsb' 8 4)) ∧
  ∀ (s : State) (x : Reg),
    (0xFFF < s.index.toNat + 2 →
      exec (.ldBVx x) s =
        .next (afterFault s .dataOutOfRange (max s.index.toNat 0x1000) (0xF#4 ++ x ++ 0x33#8))) ∧
    (s.index.toNat + 2 ≤ 0xFFF →
      ∃ t, exec (.ldBVx x) s = .next t ∧
        (t.mem.read s.index.toNat).toNat = (s.reg x).toNat / 100 ∧
        (t.mem.read (s.index.toNat + 1)).toNat = (s.reg x).toNat / 10 % 10 ∧
        (t.mem.read (s.index.toNat + 2)).toNat = (s.reg x).toNat % 10 ∧
        (∀ a, a < s.index.toNat ∨ s.index.toNat + 2 < a → t.mem.read a = s.mem.read a) ∧
        t = { s with mem := t.mem })

/-- R98 (decisions D4, D12): `Fx55` stores `V0` to `Vx` from `I` on and changes nothing else, or faults before any
write. -/
def Obligations.StoreWritesTheFirstRegisters : Prop :=
  Encoded 0xF0FF#16 0xF055#16 (fun w => .ldMemVx (w.extractLsb' 8 4)) ∧
  ∀ (s : State) (x : Reg),
    (0xFFF < s.index.toNat + x.toNat →
      exec (.ldMemVx x) s =
        .next (afterFault s .dataOutOfRange (max s.index.toNat 0x1000) (0xF#4 ++ x ++ 0x55#8))) ∧
    (s.index.toNat + x.toNat ≤ 0xFFF →
      ∃ t, exec (.ldMemVx x) s = .next t ∧
        (∀ r : Reg, r.toNat ≤ x.toNat → t.mem.read (s.index.toNat + r.toNat) = s.reg r) ∧
        (∀ a, a < s.index.toNat ∨ s.index.toNat + x.toNat < a → t.mem.read a = s.mem.read a) ∧
        t = { s with mem := t.mem })

/-- R99 (decisions D4, D12): `Fx65` loads `V0` to `Vx` from `I` on and changes nothing else, or faults before any
write. -/
def Obligations.LoadReadsTheFirstRegisters : Prop :=
  Encoded 0xF0FF#16 0xF065#16 (fun w => .ldVxMem (w.extractLsb' 8 4)) ∧
  ∀ (s : State) (x : Reg),
    (0xFFF < s.index.toNat + x.toNat →
      exec (.ldVxMem x) s =
        .next (afterFault s .dataOutOfRange (max s.index.toNat 0x1000) (0xF#4 ++ x ++ 0x65#8))) ∧
    (s.index.toNat + x.toNat ≤ 0xFFF →
      ∃ t, exec (.ldVxMem x) s = .next t ∧
        (∀ r : Reg, r.toNat ≤ x.toNat → t.reg r = s.mem.read (s.index.toNat + r.toNat)) ∧
        (∀ r : Reg, x.toNat < r.toNat → t.reg r = s.reg r) ∧
        t = { s with v := t.v })

/-- The source's round trip (R99's corner case, spec/95_test_vectors.md S9): after a store of `V0` to `Vx`, a load of
them in any later state with the same memory and `I` gives the stored values back. -/
def Obligations.LoadAfterStoreRestoresTheRegisters : Prop :=
  ∀ (s : State) (x : Reg), s.index.toNat + x.toNat ≤ 0xFFF →
    ∃ u, exec (.ldMemVx x) s = .next u ∧
      ∀ later : State, later.mem = u.mem → later.index = u.index →
        ∃ t, exec (.ldVxMem x) later = .next t ∧ ∀ r : Reg, r.toNat ≤ x.toNat → t.reg r = s.reg r

/-! ## Timers and key wait -/

/-- Timer access (spec/45_timers_and_keywait.md), as the instruction's own effect and, with the countdown of the same
cycle, as a step; `sound_active` after the cycle of `Fx18` is 1 exactly when `Vx` was above 1. That `DT` is `Vx` less 1
at the end of the cycle of `Fx15` is the spec's own inference, which the corner cases of `Fx15` mark as derived. -/
def Obligations.TimerAccessMovesTheTimers : Prop :=
  Encoded 0xF0FF#16 0xF007#16 (fun w => .ldVxDt (w.extractLsb' 8 4)) ∧
  Encoded 0xF0FF#16 0xF015#16 (fun w => .ldDtVx (w.extractLsb' 8 4)) ∧
  Encoded 0xF0FF#16 0xF018#16 (fun w => .ldStVx (w.extractLsb' 8 4)) ∧
  ∀ (s : State) (x : Reg),
    (∃ t, exec (.ldVxDt x) s = .next t ∧ WritesOnly s t x s.dt) ∧
    exec (.ldDtVx x) s = .next { s with dt := s.reg x } ∧
    exec (.ldStVx x) s = .next { s with st := s.reg x } ∧
    (CanFetch s →
      (wordAtPc s = 0xF#4 ++ x ++ 0x07#8 →
        ∃ t, step s = .next t ∧ t.reg x = s.dt ∧ t.dt.toNat = s.dt.toNat - 1) ∧
      (wordAtPc s = 0xF#4 ++ x ++ 0x15#8 → ∃ t, step s = .next t ∧ t.dt.toNat = (s.reg x).toNat - 1) ∧
      (wordAtPc s = 0xF#4 ++ x ++ 0x18#8 →
        ∃ t, step s = .next t ∧ t.st.toNat = (s.reg x).toNat - 1 ∧
          (t.soundActive = true ↔ 1 < (s.reg x).toNat)))

/-- R101 (decision D21): `Fx0A` takes the highest held key, or goes back to its own fetch address. -/
def Obligations.KeyWaitTakesTheHighestHeldKey : Prop :=
  Encoded 0xF0FF#16 0xF00A#16 (fun w => .ldVxK (w.extractLsb' 8 4)) ∧
  ∀ (s : State) (x : Reg),
    ((∀ k : Fin 16, s.key[k] = false) → exec (.ldVxK x) s = .next { s with pc := s.pc - 2#16 }) ∧
    ∀ k : Fin 16, s.key[k] = true → (∀ j : Fin 16, k < j → s.key[j] = false) →
      ∃ t, exec (.ldVxK x) s = .next t ∧ WritesOnly s t x (BitVec.ofNat 8 k.val)

/-! ## Display -/

/-- R104: `00E0`, with its alias encodings (R53), unlights every pixel and changes nothing else. -/
def Obligations.ClearUnlightsEveryPixel : Prop :=
  Encoded 0xF0FF#16 0x00E0#16 (fun w => .cls (w.extractLsb' 8 4)) ∧
  ∀ (s : State) (x : Nibble),
    ∃ t, exec (.cls x) s = .next t ∧
      (∀ px py, px < 64 → py < 32 → t.disp.pixel px py = false) ∧ t = { s with disp := t.disp }

/-- R105 (decisions D4, D11): `Dxyn` toggles exactly the pixels of the grid under the sprite's set bits, sets `VF` to the
collision flag and changes nothing else, or faults before any write. -/
def Obligations.DrawTogglesThePixelsUnderTheSprite : Prop :=
  Encoded 0xF000#16 0xD000#16 (fun w => .drw (w.extractLsb' 8 4) (w.extractLsb' 4 4) (w.extractLsb' 0 4)) ∧
  ∀ (s : State) (x y : Reg) (n : Nibble),
    (0 < n.toNat → 0xFFF < s.index.toNat + n.toNat - 1 →
      exec (.drw x y n) s =
        .next (afterFault s .dataOutOfRange (max s.index.toNat 0x1000) (0xD#4 ++ x ++ y ++ n))) ∧
    (n.toNat = 0 ∨ s.index.toNat + n.toNat - 1 ≤ 0xFFF →
      ∃ t, exec (.drw x y n) s = .next t ∧
        (∀ px py, px < 64 → py < 32 → Covers s x y n px py → t.disp.pixel px py = !s.disp.pixel px py) ∧
        (∀ px py, px < 64 → py < 32 → ¬ Covers s x y n px py → t.disp.pixel px py = s.disp.pixel px py) ∧
        ((∃ px py, px < 64 ∧ py < 32 ∧ Covers s x y n px py ∧ s.disp.pixel px py = true) → t.reg 0xF#4 = 1#8) ∧
        ((¬ ∃ px py, px < 64 ∧ py < 32 ∧ Covers s x y n px py ∧ s.disp.pixel px py = true) → t.reg 0xF#4 = 0#8) ∧
        (∀ z, z ≠ 0xF#4 → t.reg z = s.reg z) ∧
        t = { s with v := t.v, disp := t.disp })

/-- R105's last corner case (spec/90_conflicts.md C4): drawing the same sprite twice at the same place restores the
display, and the second draw sets `VF` exactly when the first turned a pixel on. The origin is the same both times
when it does not come from `VF`, which the first draw writes. -/
def Obligations.DrawingTwiceRestoresTheDisplay : Prop :=
  ∀ (s : State) (x y : Reg) (n : Nibble), x ≠ 0xF#4 → y ≠ 0xF#4 →
    n.toNat = 0 ∨ s.index.toNat + n.toNat - 1 ≤ 0xFFF →
    ∃ u t, exec (.drw x y n) s = .next u ∧ exec (.drw x y n) u = .next t ∧ t.disp = s.disp ∧
      (t.reg 0xF#4 = 1#8 ↔
        ∃ px py, px < 64 ∧ py < 32 ∧ s.disp.pixel px py = false ∧ u.disp.pixel px py = true)

/-! ## The default font -/

/-- The model's choice of log entries 2 and 6: power-on with the default `FONT_ROM`, whose bytes are presumed, is the state
after reset, whose memory lists nothing. -/
def Obligations.PowerOnWithTheDefaultFontIsReset : Prop :=
  ∀ font : Vector Byte 80, font.toList = defaultFont → State.powerOn font = State.reset
end

