-- ==== Sys2Proof/Laws/State.lean ====
section
/-! SUPPORT. One lemma per field per update of the state, each true by rfl, so that no later proof unfolds a record
update. `reg` and `halted` count as fields here: every update but those of `V` and of the fault record keeps them. -/

namespace Sys2Proof.Machine

open Sys2Proof

variable (s : State)

/-! ## `setReg` -/

@[simp] theorem State.setReg_v (x : Reg) (b : Byte) : (s.setReg x b).v = s.v.set x.toNat b x.isLt := rfl
@[simp] theorem State.setReg_index (x : Reg) (b : Byte) : (s.setReg x b).index = s.index := rfl
@[simp] theorem State.setReg_pc (x : Reg) (b : Byte) : (s.setReg x b).pc = s.pc := rfl
@[simp] theorem State.setReg_stack (x : Reg) (b : Byte) : (s.setReg x b).stack = s.stack := rfl
@[simp] theorem State.setReg_sp (x : Reg) (b : Byte) : (s.setReg x b).sp = s.sp := rfl
@[simp] theorem State.setReg_dt (x : Reg) (b : Byte) : (s.setReg x b).dt = s.dt := rfl
@[simp] theorem State.setReg_st (x : Reg) (b : Byte) : (s.setReg x b).st = s.st := rfl
@[simp] theorem State.setReg_key (x : Reg) (b : Byte) : (s.setReg x b).key = s.key := rfl
@[simp] theorem State.setReg_disp (x : Reg) (b : Byte) : (s.setReg x b).disp = s.disp := rfl
@[simp] theorem State.setReg_mem (x : Reg) (b : Byte) : (s.setReg x b).mem = s.mem := rfl
@[simp] theorem State.setReg_fault (x : Reg) (b : Byte) : (s.setReg x b).fault = s.fault := rfl
@[simp] theorem State.setReg_report (x : Reg) (b : Byte) : (s.setReg x b).report = s.report := rfl
@[simp] theorem State.setReg_draws (x : Reg) (b : Byte) : (s.setReg x b).draws = s.draws := rfl
@[simp] theorem State.setReg_halted (x : Reg) (b : Byte) : (s.setReg x b).halted = s.halted := rfl

/-! ## `setIndex` -/

@[simp] theorem State.setIndex_v (a : Word) : (s.setIndex a).v = s.v := rfl
@[simp] theorem State.setIndex_index (a : Word) : (s.setIndex a).index = a := rfl
@[simp] theorem State.setIndex_pc (a : Word) : (s.setIndex a).pc = s.pc := rfl
@[simp] theorem State.setIndex_stack (a : Word) : (s.setIndex a).stack = s.stack := rfl
@[simp] theorem State.setIndex_sp (a : Word) : (s.setIndex a).sp = s.sp := rfl
@[simp] theorem State.setIndex_dt (a : Word) : (s.setIndex a).dt = s.dt := rfl
@[simp] theorem State.setIndex_st (a : Word) : (s.setIndex a).st = s.st := rfl
@[simp] theorem State.setIndex_key (a : Word) : (s.setIndex a).key = s.key := rfl
@[simp] theorem State.setIndex_disp (a : Word) : (s.setIndex a).disp = s.disp := rfl
@[simp] theorem State.setIndex_mem (a : Word) : (s.setIndex a).mem = s.mem := rfl
@[simp] theorem State.setIndex_fault (a : Word) : (s.setIndex a).fault = s.fault := rfl
@[simp] theorem State.setIndex_report (a : Word) : (s.setIndex a).report = s.report := rfl
@[simp] theorem State.setIndex_draws (a : Word) : (s.setIndex a).draws = s.draws := rfl
@[simp] theorem State.setIndex_reg (a : Word) (r : Reg) : (s.setIndex a).reg r = s.reg r := rfl
@[simp] theorem State.setIndex_halted (a : Word) : (s.setIndex a).halted = s.halted := rfl

/-! ## `setPc` -/

@[simp] theorem State.setPc_v (a : Word) : (s.setPc a).v = s.v := rfl
@[simp] theorem State.setPc_index (a : Word) : (s.setPc a).index = s.index := rfl
@[simp] theorem State.setPc_pc (a : Word) : (s.setPc a).pc = a := rfl
@[simp] theorem State.setPc_stack (a : Word) : (s.setPc a).stack = s.stack := rfl
@[simp] theorem State.setPc_sp (a : Word) : (s.setPc a).sp = s.sp := rfl
@[simp] theorem State.setPc_dt (a : Word) : (s.setPc a).dt = s.dt := rfl
@[simp] theorem State.setPc_st (a : Word) : (s.setPc a).st = s.st := rfl
@[simp] theorem State.setPc_key (a : Word) : (s.setPc a).key = s.key := rfl
@[simp] theorem State.setPc_disp (a : Word) : (s.setPc a).disp = s.disp := rfl
@[simp] theorem State.setPc_mem (a : Word) : (s.setPc a).mem = s.mem := rfl
@[simp] theorem State.setPc_fault (a : Word) : (s.setPc a).fault = s.fault := rfl
@[simp] theorem State.setPc_report (a : Word) : (s.setPc a).report = s.report := rfl
@[simp] theorem State.setPc_draws (a : Word) : (s.setPc a).draws = s.draws := rfl
@[simp] theorem State.setPc_reg (a : Word) (r : Reg) : (s.setPc a).reg r = s.reg r := rfl
@[simp] theorem State.setPc_halted (a : Word) : (s.setPc a).halted = s.halted := rfl

/-! ## `advance` -/

@[simp] theorem State.advance_v : s.advance.v = s.v := rfl
@[simp] theorem State.advance_index : s.advance.index = s.index := rfl
@[simp] theorem State.advance_pc : s.advance.pc = s.pc + 2#16 := rfl
@[simp] theorem State.advance_stack : s.advance.stack = s.stack := rfl
@[simp] theorem State.advance_sp : s.advance.sp = s.sp := rfl
@[simp] theorem State.advance_dt : s.advance.dt = s.dt := rfl
@[simp] theorem State.advance_st : s.advance.st = s.st := rfl
@[simp] theorem State.advance_key : s.advance.key = s.key := rfl
@[simp] theorem State.advance_disp : s.advance.disp = s.disp := rfl
@[simp] theorem State.advance_mem : s.advance.mem = s.mem := rfl
@[simp] theorem State.advance_fault : s.advance.fault = s.fault := rfl
@[simp] theorem State.advance_report : s.advance.report = s.report := rfl
@[simp] theorem State.advance_draws : s.advance.draws = s.draws := rfl
@[simp] theorem State.advance_reg (r : Reg) : s.advance.reg r = s.reg r := rfl
@[simp] theorem State.advance_halted : s.advance.halted = s.halted := rfl

/-! ## `rewind` -/

@[simp] theorem State.rewind_v : s.rewind.v = s.v := rfl
@[simp] theorem State.rewind_index : s.rewind.index = s.index := rfl
@[simp] theorem State.rewind_pc : s.rewind.pc = s.pc - 2#16 := rfl
@[simp] theorem State.rewind_stack : s.rewind.stack = s.stack := rfl
@[simp] theorem State.rewind_sp : s.rewind.sp = s.sp := rfl
@[simp] theorem State.rewind_dt : s.rewind.dt = s.dt := rfl
@[simp] theorem State.rewind_st : s.rewind.st = s.st := rfl
@[simp] theorem State.rewind_key : s.rewind.key = s.key := rfl
@[simp] theorem State.rewind_disp : s.rewind.disp = s.disp := rfl
@[simp] theorem State.rewind_mem : s.rewind.mem = s.mem := rfl
@[simp] theorem State.rewind_fault : s.rewind.fault = s.fault := rfl
@[simp] theorem State.rewind_report : s.rewind.report = s.report := rfl
@[simp] theorem State.rewind_draws : s.rewind.draws = s.draws := rfl
@[simp] theorem State.rewind_reg (r : Reg) : s.rewind.reg r = s.reg r := rfl
@[simp] theorem State.rewind_halted : s.rewind.halted = s.halted := rfl

/-! ## `push` -/

@[simp] theorem State.push_v (a : Word) : (s.push a).v = s.v := rfl
@[simp] theorem State.push_index (a : Word) : (s.push a).index = s.index := rfl
@[simp] theorem State.push_pc (a : Word) : (s.push a).pc = s.pc := rfl
@[simp] theorem State.push_stack (a : Word) : (s.push a).stack = s.stack.setIfInBounds s.sp.val a := rfl
@[simp] theorem State.push_sp (a : Word) : (s.push a).sp = ⟨min (s.sp.val + 1) 16, by omega⟩ := rfl
@[simp] theorem State.push_dt (a : Word) : (s.push a).dt = s.dt := rfl
@[simp] theorem State.push_st (a : Word) : (s.push a).st = s.st := rfl
@[simp] theorem State.push_key (a : Word) : (s.push a).key = s.key := rfl
@[simp] theorem State.push_disp (a : Word) : (s.push a).disp = s.disp := rfl
@[simp] theorem State.push_mem (a : Word) : (s.push a).mem = s.mem := rfl
@[simp] theorem State.push_fault (a : Word) : (s.push a).fault = s.fault := rfl
@[simp] theorem State.push_report (a : Word) : (s.push a).report = s.report := rfl
@[simp] theorem State.push_draws (a : Word) : (s.push a).draws = s.draws := rfl
@[simp] theorem State.push_reg (a : Word) (r : Reg) : (s.push a).reg r = s.reg r := rfl
@[simp] theorem State.push_halted (a : Word) : (s.push a).halted = s.halted := rfl

/-! ## `pop` -/

@[simp] theorem State.pop_v : s.pop.v = s.v := rfl
@[simp] theorem State.pop_index : s.pop.index = s.index := rfl
@[simp] theorem State.pop_pc : s.pop.pc = s.topOfStack := rfl
@[simp] theorem State.pop_stack : s.pop.stack = s.stack := rfl
@[simp] theorem State.pop_sp : s.pop.sp = ⟨s.sp.val - 1, by omega⟩ := rfl
@[simp] theorem State.pop_dt : s.pop.dt = s.dt := rfl
@[simp] theorem State.pop_st : s.pop.st = s.st := rfl
@[simp] theorem State.pop_key : s.pop.key = s.key := rfl
@[simp] theorem State.pop_disp : s.pop.disp = s.disp := rfl
@[simp] theorem State.pop_mem : s.pop.mem = s.mem := rfl
@[simp] theorem State.pop_fault : s.pop.fault = s.fault := rfl
@[simp] theorem State.pop_report : s.pop.report = s.report := rfl
@[simp] theorem State.pop_draws : s.pop.draws = s.draws := rfl
@[simp] theorem State.pop_reg (r : Reg) : s.pop.reg r = s.reg r := rfl
@[simp] theorem State.pop_halted : s.pop.halted = s.halted := rfl

/-! ## `setDt` -/

@[simp] theorem State.setDt_v (b : Byte) : (s.setDt b).v = s.v := rfl
@[simp] theorem State.setDt_index (b : Byte) : (s.setDt b).index = s.index := rfl
@[simp] theorem State.setDt_pc (b : Byte) : (s.setDt b).pc = s.pc := rfl
@[simp] theorem State.setDt_stack (b : Byte) : (s.setDt b).stack = s.stack := rfl
@[simp] theorem State.setDt_sp (b : Byte) : (s.setDt b).sp = s.sp := rfl
@[simp] theorem State.setDt_dt (b : Byte) : (s.setDt b).dt = b := rfl
@[simp] theorem State.setDt_st (b : Byte) : (s.setDt b).st = s.st := rfl
@[simp] theorem State.setDt_key (b : Byte) : (s.setDt b).key = s.key := rfl
@[simp] theorem State.setDt_disp (b : Byte) : (s.setDt b).disp = s.disp := rfl
@[simp] theorem State.setDt_mem (b : Byte) : (s.setDt b).mem = s.mem := rfl
@[simp] theorem State.setDt_fault (b : Byte) : (s.setDt b).fault = s.fault := rfl
@[simp] theorem State.setDt_report (b : Byte) : (s.setDt b).report = s.report := rfl
@[simp] theorem State.setDt_draws (b : Byte) : (s.setDt b).draws = s.draws := rfl
@[simp] theorem State.setDt_reg (b : Byte) (r : Reg) : (s.setDt b).reg r = s.reg r := rfl
@[simp] theorem State.setDt_halted (b : Byte) : (s.setDt b).halted = s.halted := rfl

/-! ## `setSt` -/

@[simp] theorem State.setSt_v (b : Byte) : (s.setSt b).v = s.v := rfl
@[simp] theorem State.setSt_index (b : Byte) : (s.setSt b).index = s.index := rfl
@[simp] theorem State.setSt_pc (b : Byte) : (s.setSt b).pc = s.pc := rfl
@[simp] theorem State.setSt_stack (b : Byte) : (s.setSt b).stack = s.stack := rfl
@[simp] theorem State.setSt_sp (b : Byte) : (s.setSt b).sp = s.sp := rfl
@[simp] theorem State.setSt_dt (b : Byte) : (s.setSt b).dt = s.dt := rfl
@[simp] theorem State.setSt_st (b : Byte) : (s.setSt b).st = b := rfl
@[simp] theorem State.setSt_key (b : Byte) : (s.setSt b).key = s.key := rfl
@[simp] theorem State.setSt_disp (b : Byte) : (s.setSt b).disp = s.disp := rfl
@[simp] theorem State.setSt_mem (b : Byte) : (s.setSt b).mem = s.mem := rfl
@[simp] theorem State.setSt_fault (b : Byte) : (s.setSt b).fault = s.fault := rfl
@[simp] theorem State.setSt_report (b : Byte) : (s.setSt b).report = s.report := rfl
@[simp] theorem State.setSt_draws (b : Byte) : (s.setSt b).draws = s.draws := rfl
@[simp] theorem State.setSt_reg (b : Byte) (r : Reg) : (s.setSt b).reg r = s.reg r := rfl
@[simp] theorem State.setSt_halted (b : Byte) : (s.setSt b).halted = s.halted := rfl

/-! ## `countdown` -/

@[simp] theorem State.countdown_v : s.countdown.v = s.v := rfl
@[simp] theorem State.countdown_index : s.countdown.index = s.index := rfl
@[simp] theorem State.countdown_pc : s.countdown.pc = s.pc := rfl
@[simp] theorem State.countdown_stack : s.countdown.stack = s.stack := rfl
@[simp] theorem State.countdown_sp : s.countdown.sp = s.sp := rfl
@[simp] theorem State.countdown_dt : s.countdown.dt = tick s.dt := rfl
@[simp] theorem State.countdown_st : s.countdown.st = tick s.st := rfl
@[simp] theorem State.countdown_key : s.countdown.key = s.key := rfl
@[simp] theorem State.countdown_disp : s.countdown.disp = s.disp := rfl
@[simp] theorem State.countdown_mem : s.countdown.mem = s.mem := rfl
@[simp] theorem State.countdown_fault : s.countdown.fault = s.fault := rfl
@[simp] theorem State.countdown_report : s.countdown.report = s.report := rfl
@[simp] theorem State.countdown_draws : s.countdown.draws = s.draws := rfl
@[simp] theorem State.countdown_reg (r : Reg) : s.countdown.reg r = s.reg r := rfl
@[simp] theorem State.countdown_halted : s.countdown.halted = s.halted := rfl

/-! ## `takeDraw` -/

@[simp] theorem State.takeDraw_v : s.takeDraw.v = s.v := rfl
@[simp] theorem State.takeDraw_index : s.takeDraw.index = s.index := rfl
@[simp] theorem State.takeDraw_pc : s.takeDraw.pc = s.pc := rfl
@[simp] theorem State.takeDraw_stack : s.takeDraw.stack = s.stack := rfl
@[simp] theorem State.takeDraw_sp : s.takeDraw.sp = s.sp := rfl
@[simp] theorem State.takeDraw_dt : s.takeDraw.dt = s.dt := rfl
@[simp] theorem State.takeDraw_st : s.takeDraw.st = s.st := rfl
@[simp] theorem State.takeDraw_key : s.takeDraw.key = s.key := rfl
@[simp] theorem State.takeDraw_disp : s.takeDraw.disp = s.disp := rfl
@[simp] theorem State.takeDraw_mem : s.takeDraw.mem = s.mem := rfl
@[simp] theorem State.takeDraw_fault : s.takeDraw.fault = s.fault := rfl
@[simp] theorem State.takeDraw_report : s.takeDraw.report = s.report := rfl
@[simp] theorem State.takeDraw_draws : s.takeDraw.draws = s.draws + 1 := rfl
@[simp] theorem State.takeDraw_reg (r : Reg) : s.takeDraw.reg r = s.reg r := rfl
@[simp] theorem State.takeDraw_halted : s.takeDraw.halted = s.halted := rfl

/-! ## `setMem` -/

@[simp] theorem State.setMem_v (m : Memory) : (s.setMem m).v = s.v := rfl
@[simp] theorem State.setMem_index (m : Memory) : (s.setMem m).index = s.index := rfl
@[simp] theorem State.setMem_pc (m : Memory) : (s.setMem m).pc = s.pc := rfl
@[simp] theorem State.setMem_stack (m : Memory) : (s.setMem m).stack = s.stack := rfl
@[simp] theorem State.setMem_sp (m : Memory) : (s.setMem m).sp = s.sp := rfl
@[simp] theorem State.setMem_dt (m : Memory) : (s.setMem m).dt = s.dt := rfl
@[simp] theorem State.setMem_st (m : Memory) : (s.setMem m).st = s.st := rfl
@[simp] theorem State.setMem_key (m : Memory) : (s.setMem m).key = s.key := rfl
@[simp] theorem State.setMem_disp (m : Memory) : (s.setMem m).disp = s.disp := rfl
@[simp] theorem State.setMem_mem (m : Memory) : (s.setMem m).mem = m := rfl
@[simp] theorem State.setMem_fault (m : Memory) : (s.setMem m).fault = s.fault := rfl
@[simp] theorem State.setMem_report (m : Memory) : (s.setMem m).report = s.report := rfl
@[simp] theorem State.setMem_draws (m : Memory) : (s.setMem m).draws = s.draws := rfl
@[simp] theorem State.setMem_reg (m : Memory) (r : Reg) : (s.setMem m).reg r = s.reg r := rfl
@[simp] theorem State.setMem_halted (m : Memory) : (s.setMem m).halted = s.halted := rfl

/-! ## `setDisp` -/

@[simp] theorem State.setDisp_v (d : Display) : (s.setDisp d).v = s.v := rfl
@[simp] theorem State.setDisp_index (d : Display) : (s.setDisp d).index = s.index := rfl
@[simp] theorem State.setDisp_pc (d : Display) : (s.setDisp d).pc = s.pc := rfl
@[simp] theorem State.setDisp_stack (d : Display) : (s.setDisp d).stack = s.stack := rfl
@[simp] theorem State.setDisp_sp (d : Display) : (s.setDisp d).sp = s.sp := rfl
@[simp] theorem State.setDisp_dt (d : Display) : (s.setDisp d).dt = s.dt := rfl
@[simp] theorem State.setDisp_st (d : Display) : (s.setDisp d).st = s.st := rfl
@[simp] theorem State.setDisp_key (d : Display) : (s.setDisp d).key = s.key := rfl
@[simp] theorem State.setDisp_disp (d : Display) : (s.setDisp d).disp = d := rfl
@[simp] theorem State.setDisp_mem (d : Display) : (s.setDisp d).mem = s.mem := rfl
@[simp] theorem State.setDisp_fault (d : Display) : (s.setDisp d).fault = s.fault := rfl
@[simp] theorem State.setDisp_report (d : Display) : (s.setDisp d).report = s.report := rfl
@[simp] theorem State.setDisp_draws (d : Display) : (s.setDisp d).draws = s.draws := rfl
@[simp] theorem State.setDisp_reg (d : Display) (r : Reg) : (s.setDisp d).reg r = s.reg r := rfl
@[simp] theorem State.setDisp_halted (d : Display) : (s.setDisp d).halted = s.halted := rfl

/-! ## `clearReport` -/

@[simp] theorem State.clearReport_v : s.clearReport.v = s.v := rfl
@[simp] theorem State.clearReport_index : s.clearReport.index = s.index := rfl
@[simp] theorem State.clearReport_pc : s.clearReport.pc = s.pc := rfl
@[simp] theorem State.clearReport_stack : s.clearReport.stack = s.stack := rfl
@[simp] theorem State.clearReport_sp : s.clearReport.sp = s.sp := rfl
@[simp] theorem State.clearReport_dt : s.clearReport.dt = s.dt := rfl
@[simp] theorem State.clearReport_st : s.clearReport.st = s.st := rfl
@[simp] theorem State.clearReport_key : s.clearReport.key = s.key := rfl
@[simp] theorem State.clearReport_disp : s.clearReport.disp = s.disp := rfl
@[simp] theorem State.clearReport_mem : s.clearReport.mem = s.mem := rfl
@[simp] theorem State.clearReport_fault : s.clearReport.fault = s.fault := rfl
@[simp] theorem State.clearReport_report : s.clearReport.report = .clear := rfl
@[simp] theorem State.clearReport_draws : s.clearReport.draws = s.draws := rfl
@[simp] theorem State.clearReport_reg (r : Reg) : s.clearReport.reg r = s.reg r := rfl
@[simp] theorem State.clearReport_halted : s.clearReport.halted = s.halted := rfl

/-! ## `reportUnrecognized` -/

@[simp] theorem State.reportUnrecognized_v (w a : Word) : (s.reportUnrecognized w a).v = s.v := rfl
@[simp] theorem State.reportUnrecognized_index (w a : Word) : (s.reportUnrecognized w a).index = s.index := rfl
@[simp] theorem State.reportUnrecognized_pc (w a : Word) : (s.reportUnrecognized w a).pc = s.pc := rfl
@[simp] theorem State.reportUnrecognized_stack (w a : Word) : (s.reportUnrecognized w a).stack = s.stack := rfl
@[simp] theorem State.reportUnrecognized_sp (w a : Word) : (s.reportUnrecognized w a).sp = s.sp := rfl
@[simp] theorem State.reportUnrecognized_dt (w a : Word) : (s.reportUnrecognized w a).dt = s.dt := rfl
@[simp] theorem State.reportUnrecognized_st (w a : Word) : (s.reportUnrecognized w a).st = s.st := rfl
@[simp] theorem State.reportUnrecognized_key (w a : Word) : (s.reportUnrecognized w a).key = s.key := rfl
@[simp] theorem State.reportUnrecognized_disp (w a : Word) : (s.reportUnrecognized w a).disp = s.disp := rfl
@[simp] theorem State.reportUnrecognized_mem (w a : Word) : (s.reportUnrecognized w a).mem = s.mem := rfl
@[simp] theorem State.reportUnrecognized_fault (w a : Word) : (s.reportUnrecognized w a).fault = s.fault := rfl
@[simp] theorem State.reportUnrecognized_report (w a : Word) : (s.reportUnrecognized w a).report = { unrecognized := true, opcode := w, pc := a } := rfl
@[simp] theorem State.reportUnrecognized_draws (w a : Word) : (s.reportUnrecognized w a).draws = s.draws := rfl
@[simp] theorem State.reportUnrecognized_reg (w a : Word) (r : Reg) : (s.reportUnrecognized w a).reg r = s.reg r := rfl
@[simp] theorem State.reportUnrecognized_halted (w a : Word) : (s.reportUnrecognized w a).halted = s.halted := rfl

/-! ## `takeFault` -/

@[simp] theorem State.takeFault_v (code : FaultCode) (info : Info) (a w : Word) : (s.takeFault code info a w).v = s.v := rfl
@[simp] theorem State.takeFault_index (code : FaultCode) (info : Info) (a w : Word) : (s.takeFault code info a w).index = s.index := rfl
@[simp] theorem State.takeFault_pc (code : FaultCode) (info : Info) (a w : Word) : (s.takeFault code info a w).pc = a := rfl
@[simp] theorem State.takeFault_stack (code : FaultCode) (info : Info) (a w : Word) : (s.takeFault code info a w).stack = s.stack := rfl
@[simp] theorem State.takeFault_sp (code : FaultCode) (info : Info) (a w : Word) : (s.takeFault code info a w).sp = s.sp := rfl
@[simp] theorem State.takeFault_dt (code : FaultCode) (info : Info) (a w : Word) : (s.takeFault code info a w).dt = s.dt := rfl
@[simp] theorem State.takeFault_st (code : FaultCode) (info : Info) (a w : Word) : (s.takeFault code info a w).st = s.st := rfl
@[simp] theorem State.takeFault_key (code : FaultCode) (info : Info) (a w : Word) : (s.takeFault code info a w).key = s.key := rfl
@[simp] theorem State.takeFault_disp (code : FaultCode) (info : Info) (a w : Word) : (s.takeFault code info a w).disp = s.disp := rfl
@[simp] theorem State.takeFault_mem (code : FaultCode) (info : Info) (a w : Word) : (s.takeFault code info a w).mem = s.mem := rfl
@[simp] theorem State.takeFault_fault (code : FaultCode) (info : Info) (a w : Word) : (s.takeFault code info a w).fault = { code := code, pc := a, opcode := w, info := info } := rfl
@[simp] theorem State.takeFault_report (code : FaultCode) (info : Info) (a w : Word) : (s.takeFault code info a w).report = .clear := rfl
@[simp] theorem State.takeFault_draws (code : FaultCode) (info : Info) (a w : Word) : (s.takeFault code info a w).draws = s.draws := rfl
@[simp] theorem State.takeFault_reg (code : FaultCode) (info : Info) (a w : Word) (r : Reg) : (s.takeFault code info a w).reg r = s.reg r := rfl
@[simp] theorem State.takeFault_halted (code : FaultCode) (info : Info) (a w : Word) : (s.takeFault code info a w).halted = code.isFault := rfl

/-! ## `hostReset` -/

@[simp] theorem State.hostReset_v : s.hostReset.v = s.v := rfl
@[simp] theorem State.hostReset_index : s.hostReset.index = 0#16 := rfl
@[simp] theorem State.hostReset_pc : s.hostReset.pc = 0x200#16 := rfl
@[simp] theorem State.hostReset_stack : s.hostReset.stack = s.stack := rfl
@[simp] theorem State.hostReset_sp : s.hostReset.sp = 0 := rfl
@[simp] theorem State.hostReset_dt : s.hostReset.dt = 0#8 := rfl
@[simp] theorem State.hostReset_st : s.hostReset.st = 0#8 := rfl
@[simp] theorem State.hostReset_key : s.hostReset.key = s.key := rfl
@[simp] theorem State.hostReset_disp : s.hostReset.disp = s.disp := rfl
@[simp] theorem State.hostReset_mem : s.hostReset.mem = s.mem := rfl
@[simp] theorem State.hostReset_fault : s.hostReset.fault = .clear := rfl
@[simp] theorem State.hostReset_report : s.hostReset.report = .clear := rfl
@[simp] theorem State.hostReset_draws : s.hostReset.draws = s.draws := rfl
@[simp] theorem State.hostReset_reg (r : Reg) : s.hostReset.reg r = s.reg r := rfl
@[simp] theorem State.hostReset_halted : s.hostReset.halted = false := rfl

/-! ## `writeKeypad` -/

@[simp] theorem State.writeKeypad_v (keys : BitVec 16) : (s.writeKeypad keys).v = s.v := rfl
@[simp] theorem State.writeKeypad_index (keys : BitVec 16) : (s.writeKeypad keys).index = s.index := rfl
@[simp] theorem State.writeKeypad_pc (keys : BitVec 16) : (s.writeKeypad keys).pc = s.pc := rfl
@[simp] theorem State.writeKeypad_stack (keys : BitVec 16) : (s.writeKeypad keys).stack = s.stack := rfl
@[simp] theorem State.writeKeypad_sp (keys : BitVec 16) : (s.writeKeypad keys).sp = s.sp := rfl
@[simp] theorem State.writeKeypad_dt (keys : BitVec 16) : (s.writeKeypad keys).dt = s.dt := rfl
@[simp] theorem State.writeKeypad_st (keys : BitVec 16) : (s.writeKeypad keys).st = s.st := rfl
@[simp] theorem State.writeKeypad_key (keys : BitVec 16) : (s.writeKeypad keys).key = keys := rfl
@[simp] theorem State.writeKeypad_disp (keys : BitVec 16) : (s.writeKeypad keys).disp = s.disp := rfl
@[simp] theorem State.writeKeypad_mem (keys : BitVec 16) : (s.writeKeypad keys).mem = s.mem := rfl
@[simp] theorem State.writeKeypad_fault (keys : BitVec 16) : (s.writeKeypad keys).fault = s.fault := rfl
@[simp] theorem State.writeKeypad_report (keys : BitVec 16) : (s.writeKeypad keys).report = s.report := rfl
@[simp] theorem State.writeKeypad_draws (keys : BitVec 16) : (s.writeKeypad keys).draws = s.draws := rfl
@[simp] theorem State.writeKeypad_reg (keys : BitVec 16) (r : Reg) : (s.writeKeypad keys).reg r = s.reg r := rfl
@[simp] theorem State.writeKeypad_halted (keys : BitVec 16) : (s.writeKeypad keys).halted = s.halted := rfl

end Sys2Proof.Machine
end

