-- ==== Sys2Proof/Laws/Display.lean ====
section
/-! SUPPORT. What drawing does to each pixel and to the collision flag (spec/46_display.md R105). -/

namespace Sys2Proof.Machine

open Sys2Proof

/-- A flip toggles its pixel and no other, for a pixel of the grid. -/
theorem Display.pixel_flip (d : Display) (px py qx qy : Nat) (hx : px < 64) (hy : py < 32) :
    (d.flip px py).pixel qx qy = (d.pixel qx qy ^^ (decide (qx = px) && decide (qy = py))) := by
  unfold Display.flip Display.pixel
  rw [dif_pos hy]
  by_cases hq : qy < 32
  · simp only [hq, dif_pos]
    by_cases h : qy = py
    · subst h
      by_cases hqx : qx = px
      · subst hqx; simp [hx]
      · have : ¬ px = qx := fun h => hqx h.symm
        simp [BitVec.getLsbD_twoPow, hqx, this]
    · rw [Vector.getElem_set_ne hy hq (by omega)]; simp [h]
  · have : ¬ qy = py := by omega
    simp [hq, this]

@[simp] theorem Display.pixel_clear (px py : Nat) : Display.clear.pixel px py = false := by
  simp [Display.clear, Display.pixel]

/-- Two displays with the same pixels are one. -/
theorem Display.ext_pixel (d e : Display) (h : ∀ px py, px < 64 → py < 32 → d.pixel px py = e.pixel px py) : d = e := by
  refine Vector.ext fun py hpy => BitVec.eq_of_getLsbD_eq fun px hpx => ?_
  simpa [Display.pixel, hpy] using h px py hpx hpy

/-- The bit a sprite row puts on a pixel: row byte `row` drawn at (`ox`, `py`), looked at from column `qx` of row
`qy`, its first `k` columns only. -/
def rowBit (row : Byte) (ox py k qx qy : Nat) : Bool :=
  decide (qy = py) && decide (ox ≤ qx ∧ qx < ox + k) && row.getLsbD (7 - (qx - ox))

theorem rowBit_zero (row : Byte) (ox py qx qy : Nat) : rowBit row ox py 0 qx qy = false := by
  have : decide (ox ≤ qx ∧ qx < ox + 0) = false := decide_eq_false (by omega)
  rw [rowBit, this, Bool.and_false, Bool.false_and]

/-- Drawing columns toggles exactly the pixels of the grid that carry a set bit. -/
theorem pixel_drawCols (row : Byte) (ox py k : Nat) (canvas : Display × Bool) (qx qy : Nat) (hx : qx < 64)
    (hy : qy < 32) :
    (drawCols row ox py k canvas).1.pixel qx qy = (canvas.1.pixel qx qy ^^ rowBit row ox py k qx qy) := by
  induction k with
  | zero => simp [drawCols, rowBit_zero]
  | succ k ih =>
    rw [drawCols, drawBit]
    split
    · rename_i h
      rw [Display.pixel_flip _ _ _ _ _ h.2.1 h.2.2, ih, Bool.xor_assoc]
      congr 1
      unfold rowBit
      by_cases hqy : qy = py
      · by_cases hqx : qx = ox + k
        · subst hqx; simp [hqy, h.1]
        · have : (ox ≤ qx ∧ qx < ox + (k + 1)) ↔ (ox ≤ qx ∧ qx < ox + k) := by omega
          simp [hqx, this]
      · simp [hqy]
    · rename_i h
      rw [ih]
      congr 1
      unfold rowBit
      by_cases hqy : qy = py
      · by_cases hqx : qx = ox + k
        · have hb : row.getLsbD (7 - k) = false := by
            by_contra hb
            exact h ⟨by simpa using hb, by omega, by omega⟩
          subst hqx; simp [hb]
        · have : (ox ≤ qx ∧ qx < ox + (k + 1)) ↔ (ox ≤ qx ∧ qx < ox + k) := by omega
          simp [this]
      · simp [hqy]

/-- Drawing columns records a collision exactly when a set bit meets a lit pixel of the grid. -/
theorem hit_drawCols (row : Byte) (ox py k : Nat) (canvas : Display × Bool) :
    (drawCols row ox py k canvas).2 = true ↔
      canvas.2 = true ∨
      ∃ qx qy, qx < 64 ∧ qy < 32 ∧ rowBit row ox py k qx qy = true ∧ canvas.1.pixel qx qy = true := by
  induction k with
  | zero => simp [drawCols, rowBit_zero]
  | succ k ih =>
    have hmono : ∀ qx qy, rowBit row ox py k qx qy = true → rowBit row ox py (k + 1) qx qy = true := by
      intro qx qy; simp only [rowBit, Bool.and_eq_true, decide_eq_true_eq]
      exact fun h => ⟨⟨h.1.1, by omega⟩, h.2⟩
    rw [drawCols, drawBit]
    split
    · rename_i h
      have hself : rowBit row ox py k (ox + k) py = false := by simp [rowBit]
      rw [Bool.or_eq_true, ih, pixel_drawCols _ _ _ _ _ _ _ h.2.1 h.2.2, hself, Bool.xor_false]
      constructor
      · rintro ((hc | ⟨qx, qy, h1, h2, h3, h4⟩) | hp)
        · exact .inl hc
        · exact .inr ⟨qx, qy, h1, h2, hmono _ _ h3, h4⟩
        · exact .inr ⟨ox + k, py, h.2.1, h.2.2, by simp [rowBit, h.1], hp⟩
      · rintro (hc | ⟨qx, qy, h1, h2, h3, h4⟩)
        · exact .inl (.inl hc)
        · by_cases hq : qx = ox + k
          · simp only [rowBit, Bool.and_eq_true, decide_eq_true_eq] at h3
            right; rw [← hq, ← h3.1.1]; exact h4
          · left; right
            refine ⟨qx, qy, h1, h2, ?_, h4⟩
            revert h3; simp only [rowBit, Bool.and_eq_true, decide_eq_true_eq]
            exact fun h => ⟨⟨h.1.1, by omega⟩, h.2⟩
    · rename_i h
      rw [ih]
      constructor
      · rintro (hc | ⟨qx, qy, h1, h2, h3, h4⟩)
        · exact .inl hc
        · exact .inr ⟨qx, qy, h1, h2, hmono _ _ h3, h4⟩
      · rintro (hc | ⟨qx, qy, h1, h2, h3, h4⟩)
        · exact .inl hc
        · right
          refine ⟨qx, qy, h1, h2, ?_, h4⟩
          by_cases hq : qx = ox + k
          · simp only [rowBit, Bool.and_eq_true, decide_eq_true_eq] at h3
            exfalso; apply h
            have : 7 - (qx - ox) = 7 - k := by omega
            exact ⟨this ▸ h3.2, by omega, by omega⟩
          · revert h3; simp only [rowBit, Bool.and_eq_true, decide_eq_true_eq]
            exact fun h => ⟨⟨h.1.1, by omega⟩, h.2⟩

/-- The bit a sprite puts on a pixel: rows `rows` drawn at (`ox`, `oy`), looked at from (`qx`, `qy`). -/
def spriteBit (ox oy : Nat) (rows : List Byte) (qx qy : Nat) : Bool :=
  decide (oy ≤ qy ∧ qy < oy + rows.length) && decide (ox ≤ qx ∧ qx < ox + 8) &&
    (rows.getD (qy - oy) 0#8).getLsbD (7 - (qx - ox))

theorem spriteBit_nil (ox oy qx qy : Nat) : spriteBit ox oy [] qx qy = false := by
  have : decide (oy ≤ qy ∧ qy < oy + ([] : List Byte).length) = false := decide_eq_false (by simp)
  rw [spriteBit, this, Bool.false_and, Bool.false_and]

theorem spriteBit_cons (ox oy : Nat) (row : Byte) (rest : List Byte) (qx qy : Nat) :
    spriteBit ox oy (row :: rest) qx qy = (rowBit row ox oy 8 qx qy || spriteBit ox (oy + 1) rest qx qy) := by
  unfold spriteBit rowBit
  by_cases h : qy = oy
  · subst h; simp
  · by_cases h2 : oy + 1 ≤ qy
    · have : qy - oy = (qy - (oy + 1)) + 1 := by omega
      have h3 : (oy ≤ qy ∧ qy < oy + (rest.length + 1)) ↔ (oy + 1 ≤ qy ∧ qy < oy + 1 + rest.length) := by omega
      simp only [List.length_cons, this, List.getD_cons_succ, h3, h, decide_false, Bool.false_and, Bool.false_or]
    · have : ¬ oy ≤ qy := by omega
      simp [h, h2, this]

/-- A row's bits and the bits of the rows below it never fall on one pixel. -/
theorem rowBit_spriteBit (ox oy : Nat) (row : Byte) (rest : List Byte) (qx qy : Nat)
    (h : rowBit row ox oy 8 qx qy = true) : spriteBit ox (oy + 1) rest qx qy = false := by
  simp only [rowBit, Bool.and_eq_true, decide_eq_true_eq] at h
  simp [spriteBit]; omega

/-- Drawing a sprite toggles exactly the pixels of the grid under its set bits. -/
theorem pixel_drawRows (rows : List Byte) (ox oy : Nat) (canvas : Display × Bool) (qx qy : Nat) (hx : qx < 64)
    (hy : qy < 32) :
    (drawRows ox oy rows canvas).1.pixel qx qy = (canvas.1.pixel qx qy ^^ spriteBit ox oy rows qx qy) := by
  induction rows generalizing oy canvas with
  | nil => simp [drawRows, spriteBit_nil]
  | cons row rest ih =>
    rw [drawRows, ih, pixel_drawCols _ _ _ _ _ _ _ hx hy, spriteBit_cons, Bool.xor_assoc]
    congr 1
    cases h : rowBit row ox oy 8 qx qy
    · simp
    · simp [rowBit_spriteBit ox oy row rest qx qy h]

/-- Drawing a sprite records a collision exactly when a set bit meets a lit pixel of the grid. -/
theorem hit_drawRows (rows : List Byte) (ox oy : Nat) (canvas : Display × Bool) :
    (drawRows ox oy rows canvas).2 = true ↔
      canvas.2 = true ∨
      ∃ qx qy, qx < 64 ∧ qy < 32 ∧ spriteBit ox oy rows qx qy = true ∧ canvas.1.pixel qx qy = true := by
  induction rows generalizing oy canvas with
  | nil => simp [drawRows, spriteBit_nil]
  | cons row rest ih =>
    rw [drawRows, ih, hit_drawCols]
    constructor
    · rintro ((hc | ⟨qx, qy, h1, h2, h3, h4⟩) | ⟨qx, qy, h1, h2, h3, h4⟩)
      · exact .inl hc
      · exact .inr ⟨qx, qy, h1, h2, by rw [spriteBit_cons, h3]; rfl, h4⟩
      · refine .inr ⟨qx, qy, h1, h2, by rw [spriteBit_cons, h3]; simp, ?_⟩
        rw [pixel_drawCols _ _ _ _ _ _ _ h1 h2] at h4
        cases hr : rowBit row ox oy 8 qx qy
        · simpa [hr] using h4
        · rw [rowBit_spriteBit ox oy row rest qx qy hr] at h3; cases h3
    · rintro (hc | ⟨qx, qy, h1, h2, h3, h4⟩)
      · exact .inl (.inl hc)
      · rw [spriteBit_cons] at h3
        cases hr : rowBit row ox oy 8 qx qy
        · right
          refine ⟨qx, qy, h1, h2, by simpa [hr] using h3, ?_⟩
          rw [pixel_drawCols _ _ _ _ _ _ _ h1 h2, hr]; simpa using h4
        · exact .inl (.inr ⟨qx, qy, h1, h2, hr, h4⟩)

end Sys2Proof.Machine
end

