-- ==== Sys2Proof/Laws/Memory.lean ====
section
/-! SUPPORT. The laws of memory: a read after a write, and that every operation keeps the canonical form. The read laws
hold of every list of cells, canonical or not. -/

namespace Sys2Proof.Machine

open Sys2Proof

/-! ## Reading after writing -/

theorem Memory.read_erase (m : Memory) (a b : Nat) :
    (m.erase a).read b = if b = a then Memory.unlisted b else m.read b := by
  induction m with
  | nil => simp [Memory.erase, Memory.read]
  | cons cell rest ih =>
    unfold Memory.erase
    by_cases h : cell.1 = a
    · rw [if_pos h, ih]
      by_cases hb : b = a
      · simp [hb]
      · simp only [hb, if_false]
        rw [Memory.read, if_neg (by omega)]
    · rw [if_neg h, Memory.read, ih, Memory.read]
      by_cases hc : cell.1 = b
      · simp only [hc, if_true]; rw [if_neg (by omega)]
      · simp [hc]

theorem Memory.read_insert (m : Memory) (a b : Nat) (v : Byte) (h : ∀ cell ∈ m, cell.1 ≠ a) :
    (m.insert a v).read b = if b = a then v else m.read b := by
  induction m with
  | nil => simp [Memory.insert, Memory.read, eq_comm]
  | cons cell rest ih =>
    have hc : cell.1 ≠ a := h cell (by simp)
    have ih := ih fun c hm => h c (by simp [hm])
    unfold Memory.insert
    by_cases hlt : a < cell.1
    · rw [if_pos hlt, Memory.read]; simp only [eq_comm]
    · rw [if_neg hlt, Memory.read, ih, Memory.read]
      by_cases hb : cell.1 = b
      · simp only [hb, if_true]; rw [if_neg (by omega)]
      · simp [hb]

theorem Memory.ne_of_mem_erase (m : Memory) (a : Nat) : ∀ cell ∈ m.erase a, cell.1 ≠ a := by
  induction m with
  | nil => simp [Memory.erase]
  | cons cell rest ih =>
    unfold Memory.erase
    by_cases h : cell.1 = a
    · rw [if_pos h]; exact ih
    · rw [if_neg h]
      intro c hc
      rcases List.mem_cons.mp hc with rfl | hc
      · exact h
      · exact ih c hc

/-- A write changes exactly one byte (R41). -/
theorem Memory.read_write (m : Memory) (a b : Nat) (v : Byte) :
    (m.write a v).read b = if b = a then v else m.read b := by
  unfold Memory.write
  by_cases hv : v = Memory.unlisted a
  · rw [if_pos hv, Memory.read_erase]
    by_cases hb : b = a
    · simp [hb, hv]
    · simp [hb]
  · rw [if_neg hv, Memory.read_insert _ _ _ _ (Memory.ne_of_mem_erase m a), Memory.read_erase]
    by_cases hb : b = a <;> simp [hb]

/-- Writing a run of bytes changes exactly the run. -/
theorem Memory.read_writeBytes (bs : List Byte) (m : Memory) (a b : Nat) :
    (m.writeBytes a bs).read b = if a ≤ b ∧ b < a + bs.length then bs.getD (b - a) 0#8 else m.read b := by
  induction bs generalizing m a with
  | nil => simp only [Memory.writeBytes, List.length_nil]; rw [if_neg (by omega)]
  | cons v rest ih =>
    rw [Memory.writeBytes, ih, Memory.read_write, List.length_cons]
    by_cases hb : b = a
    · subst hb; simp
    · by_cases hin : a + 1 ≤ b ∧ b < a + 1 + rest.length
      · have : b - a = (b - (a + 1)) + 1 := by omega
        rw [if_pos hin, if_pos (by omega), this, List.getD_cons_succ]
      · rw [if_neg hin, if_neg hb, if_neg (by omega)]

theorem Memory.length_readBytes (m : Memory) (a n : Nat) : (m.readBytes a n).length = n := by
  induction n generalizing a with
  | zero => rfl
  | succ n ih => rw [Memory.readBytes, List.length_cons, ih]

/-- Byte `k` of a run that is read. -/
theorem Memory.getD_readBytes (m : Memory) (a n k : Nat) (h : k < n) :
    (m.readBytes a n).getD k 0#8 = m.read (a + k) := by
  induction n generalizing a k with
  | zero => omega
  | succ n ih =>
    rw [Memory.readBytes]
    cases k with
    | zero => simp
    | succ k => rw [List.getD_cons_succ, ih _ _ (by omega)]; congr 1; omega

/-! ## The canonical form -/

theorem Memory.wfFrom_erase (m : Memory) (lo a : Nat) (h : Memory.wfFrom lo m = true) :
    Memory.wfFrom lo (m.erase a) = true := by
  induction m generalizing lo with
  | nil => rfl
  | cons cell rest ih =>
    simp only [Memory.wfFrom, Bool.and_eq_true, decide_eq_true_eq] at h
    unfold Memory.erase
    split
    · have hr := ih _ h.2
      revert hr
      generalize Memory.erase rest a = r
      cases r with
      | nil => exact fun _ => rfl
      | cons c r =>
        simp only [Memory.wfFrom, Bool.and_eq_true, decide_eq_true_eq]
        exact fun hr => ⟨⟨⟨by omega, hr.1.1.2⟩, hr.1.2⟩, hr.2⟩
    · simp only [Memory.wfFrom, Bool.and_eq_true, decide_eq_true_eq]
      exact ⟨h.1, ih _ h.2⟩

theorem Memory.wfFrom_insert (m : Memory) (lo a : Nat) (v : Byte) (h : Memory.wfFrom lo m = true)
    (hn : ∀ cell ∈ m, cell.1 ≠ a) (hlo : lo ≤ a) (ha : a < 4096) (hv : v ≠ Memory.unlisted a) :
    Memory.wfFrom lo (m.insert a v) = true := by
  induction m generalizing lo with
  | nil => simp [Memory.insert, Memory.wfFrom, hlo, ha, hv]
  | cons cell rest ih =>
    have hc : cell.1 ≠ a := hn cell (by simp)
    simp only [Memory.wfFrom, Bool.and_eq_true, decide_eq_true_eq] at h
    unfold Memory.insert
    split
    · simp only [Memory.wfFrom, Bool.and_eq_true, decide_eq_true_eq]
      exact ⟨⟨⟨hlo, ha⟩, hv⟩, ⟨⟨by omega, h.1.1.2⟩, h.1.2⟩, h.2⟩
    · simp only [Memory.wfFrom, Bool.and_eq_true, decide_eq_true_eq]
      exact ⟨h.1, ih _ h.2 (fun c hm => hn c (by simp [hm])) (by omega)⟩

/-- A write inside memory keeps the canonical form. -/
theorem Memory.wf_write (m : Memory) (a : Nat) (v : Byte) (h : m.wf = true) (ha : a < 4096) :
    (m.write a v).wf = true := by
  unfold Memory.write Memory.wf
  split
  · exact Memory.wfFrom_erase m 0 a h
  · rename_i hv
    exact Memory.wfFrom_insert _ 0 a v (Memory.wfFrom_erase m 0 a h) (Memory.ne_of_mem_erase m a) (by omega) ha hv

/-- Writing a run of bytes inside memory keeps the canonical form. -/
theorem Memory.wf_writeBytes (bs : List Byte) (m : Memory) (a : Nat) (h : m.wf = true) (ha : a + bs.length ≤ 4096) :
    (m.writeBytes a bs).wf = true := by
  induction bs generalizing m a with
  | nil => exact h
  | cons v rest ih =>
    rw [List.length_cons] at ha
    exact ih _ _ (Memory.wf_write m a v h (by omega)) (by omega)

theorem Memory.wf_reset : State.reset.mem.wf = true := rfl

/-- Canonical memory from an address on reads as unlisted below it. -/
theorem Memory.read_below (m : Memory) (lo a : Nat) (h : Memory.wfFrom lo m = true) (ha : a < lo) :
    m.read a = Memory.unlisted a := by
  induction m generalizing lo with
  | nil => rfl
  | cons cell rest ih =>
    simp only [Memory.wfFrom, Bool.and_eq_true, decide_eq_true_eq] at h
    rw [Memory.read, if_neg (by omega), ih _ h.2 (by omega)]

end Sys2Proof.Machine
end

