-- ==== Sys2Proof/Laws/Registers.lean ====
section
/-! SUPPORT. The spec lemmas of the register, stack, timer and flag operations. -/

namespace Sys2Proof.Machine

open Sys2Proof

/-! ## General registers -/

/-- A write stores the value, and leaves every other register (R14). -/
theorem State.reg_setReg (s : State) (x y : Reg) (b : Byte) :
    (s.setReg x b).reg y = if y = x then b else s.reg y := by
  simp only [State.reg, State.setReg, Vector.getElem_set, BitVec.toNat_inj, eq_comm]

@[simp] theorem State.reg_setReg_self (s : State) (x : Reg) (b : Byte) : (s.setReg x b).reg x = b := by
  simp [State.reg_setReg]

theorem State.reg_setReg_of_ne (s : State) {x y : Reg} (b : Byte) (h : y ≠ x) :
    (s.setReg x b).reg y = s.reg y := by
  simp [State.reg_setReg, h]

/-- Two states that differ in `V` alone and agree on every register are one. -/
theorem State.eq_of_regs {s t : State} (hv : t = { s with v := t.v }) (h : ∀ r, t.reg r = s.reg r) : t = s := by
  have hvv : t.v = s.v := by
    refine Vector.ext fun k hk => ?_
    have := h (BitVec.ofNat 4 k)
    simpa [State.reg, Nat.mod_eq_of_lt hk] using this
  rw [hv, hvv]

/-- The flag is written first and the destination second (R17). -/
theorem State.reg_writeFlagged (s : State) (x y : Reg) (flag result : Byte) :
    (s.writeFlagged x flag result).reg y = if y = x then result else if y = vf then flag else s.reg y := by
  simp [State.writeFlagged, State.reg_setReg]

theorem State.writeFlagged_frame (s : State) (x : Reg) (flag result : Byte) :
    s.writeFlagged x flag result = { s with v := (s.writeFlagged x flag result).v } := rfl

theorem State.reset_reg (r : Reg) : State.reset.reg r = 0#8 := by
  simp [State.reg, State.reset]

/-! ## Blocks of registers (R98, R99) -/

theorem State.length_firstRegs (s : State) (x : Reg) : (s.firstRegs x).length = x.toNat + 1 := by
  have := x.isLt
  simp [State.firstRegs]; omega

theorem State.getElem_firstRegs (s : State) (x : Reg) (k : Nat) (h : k < (s.firstRegs x).length) :
    (s.firstRegs x)[k] = s.reg (BitVec.ofNat 4 k) := by
  have h' := h
  rw [State.length_firstRegs] at h'
  have := x.isLt
  simp only [State.firstRegs, List.getElem_take, Vector.getElem_toList, State.reg, BitVec.toNat_ofNat]
  congr 1; omega

/-- Loading changes `V` alone. -/
theorem State.loadRegs_frame (bs : List Byte) (s : State) (j : Nat) :
    s.loadRegs j bs = { s with v := (s.loadRegs j bs).v } := by
  induction bs generalizing s j with
  | nil => rfl
  | cons b rest ih => rw [State.loadRegs, ih]; rfl

/-- Register `j + k` gets byte `k`, and every other register keeps its value. -/
theorem State.reg_loadRegs (bs : List Byte) (s : State) (j : Nat) (h : j + bs.length ≤ 16) (r : Reg) :
    (s.loadRegs j bs).reg r =
      if j ≤ r.toNat ∧ r.toNat < j + bs.length then bs.getD (r.toNat - j) 0#8 else s.reg r := by
  induction bs generalizing s j with
  | nil => rw [State.loadRegs, List.length_nil, if_neg (by omega)]
  | cons b rest ih =>
    simp only [List.length_cons] at h
    rw [State.loadRegs, ih _ _ (by omega), State.reg_setReg]
    have hr : r = BitVec.ofNat 4 j ↔ r.toNat = j := by
      rw [← BitVec.toNat_inj, BitVec.toNat_ofNat, Nat.mod_eq_of_lt (by omega)]
    simp only [hr, List.length_cons]
    by_cases hj : r.toNat = j
    · simp [hj]
    · by_cases hin : j + 1 ≤ r.toNat ∧ r.toNat < j + 1 + rest.length
      · have : r.toNat - j = (r.toNat - (j + 1)) + 1 := by omega
        rw [if_pos hin, if_pos (by omega), this, List.getD_cons_succ]
      · rw [if_neg hin, if_neg hj, if_neg (by omega)]

/-! ## Stack (R70, R72) -/

/-- A push below the full stack puts the value at the old `sp`, keeps every other entry and counts one up. -/
theorem State.push_of_lt (s : State) (a : Word) (h : s.sp.val < 16) :
    (s.push a).stack = s.stack.set s.sp.val a h ∧ (s.push a).sp.val = s.sp.val + 1 := by
  constructor
  · simp [State.push, Vector.setIfInBounds, Vector.set, Array.setIfInBounds, h]
  · simp [State.push]; omega

/-- A pop undoes a push. -/
theorem State.topOfStack_push (s : State) (a : Word) (h : s.sp.val < 16) : (s.push a).topOfStack = a := by
  obtain ⟨hs, hp⟩ := s.push_of_lt a h
  simp only [State.topOfStack, hs, hp, Nat.add_sub_cancel, Vector.getElem_set_self]

/-! ## Timers (R117) -/

/-- A timer goes down by one with its floor at 0. -/
theorem toNat_tick (t : Byte) : (tick t).toNat = t.toNat - 1 := by
  unfold tick
  split <;> rename_i h
  · simp [h]
  · have : t.toNat ≠ 0 := fun h' => h (BitVec.eq_of_toNat_eq (by simpa using h'))
    have := t.isLt
    simp [BitVec.toNat_sub]; omega

/-! ## Flags and results (R16, R81) -/

theorem toNat_bit (c : Bool) : (bit c).toNat = if c then 1 else 0 := by
  cases c <;> rfl

theorem toNat_addWrap (a b : Byte) : (addWrap a b).toNat = (a.toNat + b.toNat) % 256 := by
  simp [addWrap]

theorem toNat_subWrap (a b : Byte) : (subWrap a b).toNat = (a.toNat + 256 - b.toNat) % 256 := by
  simp [subWrap]

theorem toNat_shiftRight1 (a : Byte) : (shiftRight1 a).toNat = a.toNat / 2 := by
  have := a.isLt
  simp [shiftRight1]; omega

theorem toNat_shiftLeft1 (a : Byte) : (shiftLeft1 a).toNat = a.toNat * 2 % 256 := by
  simp [shiftLeft1]

theorem toNat_addrWord (nnn : Addr) : (addrWord nnn).toNat = nnn.toNat := by
  have := nnn.isLt
  simp [addrWord]; omega

theorem toNat_offsetTarget (v0 : Byte) (nnn : Addr) : (offsetTarget v0 nnn).toNat = v0.toNat + nnn.toNat := by
  have := v0.isLt; have := nnn.isLt
  simp [offsetTarget]; omega

theorem toNat_indexPlus (a : Word) (v : Byte) : (indexPlus a v).toNat = (a.toNat + v.toNat) % 65536 := by
  simp [indexPlus]

theorem toNat_glyphAddr (v : Byte) : (glyphAddr v).toNat = 0x050 + 5 * v.toNat := by
  have := v.isLt
  simp [glyphAddr]; omega

/-! ## Key wait (R101) -/

/-- The highest held key below `n`. -/
theorem highestHeld_eq_some (keys : BitVec 16) (n k : Nat) :
    highestHeld keys n = some k ↔ k < n ∧ keyHeld keys k = true ∧ ∀ j, k < j → j < n → keyHeld keys j = false := by
  induction n with
  | zero => simp [highestHeld]
  | succ n ih =>
    unfold highestHeld
    by_cases h : keyHeld keys n = true
    · rw [if_pos h, Option.some_inj]
      constructor
      · rintro rfl; exact ⟨by omega, h, fun j _ _ => by omega⟩
      · rintro ⟨hk, _, hj⟩
        by_contra hne
        have := hj n (by omega) (by omega)
        simp [h] at this
    · rw [if_neg h, ih]
      constructor
      · rintro ⟨h1, h2, h3⟩
        refine ⟨by omega, h2, fun j hj hn => ?_⟩
        by_cases hjn : j = n
        · subst hjn; simpa using h
        · exact h3 j hj (by omega)
      · rintro ⟨h1, h2, h3⟩
        refine ⟨?_, h2, fun j hj hn => h3 j hj (by omega)⟩
        by_contra hk
        have : k = n := by omega
        subst this; exact h h2

/-- No key below `n` is held. -/
theorem highestHeld_eq_none (keys : BitVec 16) (n : Nat) :
    highestHeld keys n = none ↔ ∀ k, k < n → keyHeld keys k = false := by
  induction n with
  | zero => simp [highestHeld]
  | succ n ih =>
    unfold highestHeld
    by_cases h : keyHeld keys n = true
    · simp only [h, if_true, reduceCtorEq, false_iff]
      intro hk; have := hk n (by omega); simp [h] at this
    · rw [if_neg h, ih]
      constructor
      · intro hk k hkn
        by_cases hkn' : k = n
        · subst hkn'; simpa using h
        · exact hk k (by omega)
      · intro hk k hkn; exact hk k (by omega)

end Sys2Proof.Machine
end

