-- ==== Sys2Proof/Laws/Exec.lean ====
section
/-! SUPPORT. What an instruction and a step can do, said once: the range check, the two ways an instruction ends (its
effect, or the entry of a fault), and the four ways a step ends. -/

namespace Sys2Proof.Machine

open Sys2Proof

/-! ## The range check (R41) -/

theorem checkRange_eq_none (b c : Nat) : checkRange b c = none ↔ c = 0 ∨ b + c ≤ 0x1000 := by
  unfold checkRange; split <;> simp <;> omega

theorem checkRange_eq_some (b c a : Nat) :
    checkRange b c = some a ↔ 0 < c ∧ 0x1000 < b + c ∧ a = max b 0x1000 := by
  unfold checkRange; split <;> simp <;> omega

/-- An access whose addresses are all in memory runs. -/
theorem withRange_of_le (b c : Nat) (i : Instr) (s t : State) (h : c = 0 ∨ b + c ≤ 0x1000) :
    withRange b c i s t = .next t := by
  rw [withRange, (checkRange_eq_none b c).mpr h]

/-- An access with an address above 0xFFF raises DATA_OUT_OF_RANGE with the lowest such address. -/
theorem withRange_of_gt (b c : Nat) (i : Instr) (s t : State) (hc : 0 < c) (h : 0x1000 < b + c) :
    withRange b c i s t = raise .dataOutOfRange (max b 0x1000) i s := by
  rw [withRange, (checkRange_eq_some b c _).mpr ⟨hc, h, rfl⟩]

/-- The two ends of a checked access. -/
theorem withRange_cases (b c : Nat) (i : Instr) (s t : State) :
    (withRange b c i s t = .next t ∧ (c = 0 ∨ b + c ≤ 0x1000)) ∨
      (withRange b c i s t = raise .dataOutOfRange (max b 0x1000) i s ∧ 0 < c ∧ 0x1000 < b + c) := by
  by_cases h : c = 0 ∨ b + c ≤ 0x1000
  · exact .inl ⟨withRange_of_le b c i s t h, h⟩
  · exact .inr ⟨withRange_of_gt b c i s t (by omega) (by omega), by omega, by omega⟩

/-! ## How an instruction ends -/

/-- What every instruction's own effect keeps: the fault record, the report and the keypad latch. -/
def KeepsStatus (s t : State) : Prop :=
  t.fault = s.fault ∧ t.report = s.report ∧ t.key = s.key

theorem KeepsStatus.refl (s : State) : KeepsStatus s s := ⟨rfl, rfl, rfl⟩

/-- DATA_OUT_OF_RANGE for an access of `c` bytes from `I` on, if it leaves memory. -/
def overrunOf (s : State) (c : Nat) : Option (FaultCode × Nat) :=
  (checkRange s.index.toNat c).map fun a => (.dataOutOfRange, a)

/-- KEY_INDEX_OUT_OF_RANGE for the key that `Vx` names, if there is no such key. -/
def badKeyOf (s : State) (x : Reg) : Option (FaultCode × Nat) :=
  if 0xF < (s.reg x).toNat then some (.keyIndexOutOfRange, (s.reg x).toNat) else none

/-- The fault that an instruction raises in a state, with its `fault_info`, if it raises one: the table of R107. -/
def faultOf (i : Instr) (s : State) : Option (FaultCode × Nat) :=
  match i with
  | .ret _ => if s.sp.val = 0 then some (.stackUnderflow, 0) else none
  | .call _ => if s.sp.val = 16 then some (.stackOverflow, 16) else none
  | .skp x => badKeyOf s x
  | .sknp x => badKeyOf s x
  | .drw _ _ n => overrunOf s n.toNat
  | .ldBVx _ => overrunOf s 3
  | .ldMemVx x => overrunOf s (x.toNat + 1)
  | .ldVxMem x => overrunOf s (x.toNat + 1)
  | _ => none

/-- `r` is how `i` ends in `s`: its effect, or the entry of the fault that R107 gives it. -/
def Ends (i : Instr) (s : State) (r : Result) : Prop :=
  (faultOf i s = none ∧ ∃ t, r = .next t ∧ KeepsStatus s t) ∨
    ∃ code info, faultOf i s = some (code, info) ∧ r = raise code info i s

theorem Ends.effect {i : Instr} {s t : State} (hf : faultOf i s = none) (hk : KeepsStatus s t) :
    Ends i s (.next t) :=
  .inl ⟨hf, t, rfl, hk⟩

theorem withRange_ends (c : Nat) (i : Instr) (s t : State) (hf : faultOf i s = overrunOf s c)
    (hk : KeepsStatus s t) : Ends i s (withRange s.index.toNat c i s t) := by
  unfold withRange
  cases h : checkRange s.index.toNat c with
  | none => exact Ends.effect (by simp [hf, overrunOf, h]) hk
  | some a => exact .inr ⟨_, _, by rw [hf, overrunOf, h]; rfl, rfl⟩

theorem skipIf_keepsStatus (c : Bool) (s : State) : ∃ t, skipIf c s = .next t ∧ KeepsStatus s t := by
  cases c
  · exact ⟨s, rfl, KeepsStatus.refl s⟩
  · exact ⟨s.advance, rfl, rfl, rfl, rfl⟩

theorem skipOnKey_ends (x : Reg) (held : Bool) (i : Instr) (s : State) (hf : faultOf i s = badKeyOf s x) :
    Ends i s (skipOnKey x held i s) := by
  unfold skipOnKey
  unfold badKeyOf at hf
  split <;> rename_i h
  · exact .inr ⟨_, _, by rw [hf, if_pos h], rfl⟩
  · rw [if_neg h] at hf
    exact .inl ⟨hf, skipIf_keepsStatus _ _⟩

theorem loadRegs_keepsStatus (s : State) (j : Nat) (bs : List Byte) : KeepsStatus s (s.loadRegs j bs) := by
  rw [State.loadRegs_frame]; exact ⟨rfl, rfl, rfl⟩

/-- Every instruction ends in its effect or in the entry of the fault that R107 gives it. -/
theorem exec_ends (i : Instr) (s : State) : Ends i s (exec i s) := by
  cases i
  case ret x =>
    simp only [exec, execRet]
    split <;> rename_i h
    · exact .inr ⟨_, _, by rw [faultOf, if_pos h], rfl⟩
    · exact Ends.effect (by rw [faultOf, if_neg h]) ⟨rfl, rfl, rfl⟩
  case call nnn =>
    simp only [exec, execCall]
    split <;> rename_i h
    · exact .inr ⟨_, _, by rw [faultOf, if_pos h], rfl⟩
    · exact Ends.effect (by rw [faultOf, if_neg h]) ⟨rfl, rfl, rfl⟩
  case seImm x kk => exact .inl ⟨rfl, skipIf_keepsStatus _ _⟩
  case sneImm x kk => exact .inl ⟨rfl, skipIf_keepsStatus _ _⟩
  case seReg x y => exact .inl ⟨rfl, skipIf_keepsStatus _ _⟩
  case sneReg x y => exact .inl ⟨rfl, skipIf_keepsStatus _ _⟩
  case skp x => exact skipOnKey_ends x _ _ s rfl
  case sknp x => exact skipOnKey_ends x _ _ s rfl
  case ldVxK x =>
    simp only [exec, execLdVxK]
    split <;> exact Ends.effect rfl ⟨rfl, rfl, rfl⟩
  case ldBVx x => exact withRange_ends _ _ s _ rfl ⟨rfl, rfl, rfl⟩
  case ldMemVx x => exact withRange_ends _ _ s _ rfl ⟨rfl, rfl, rfl⟩
  case ldVxMem x => exact withRange_ends _ _ s _ rfl (loadRegs_keepsStatus _ _ _)
  case drw x y n => exact withRange_ends _ _ s _ rfl ⟨rfl, rfl, rfl⟩
  all_goals exact Ends.effect rfl ⟨rfl, rfl, rfl⟩

/-- `exec_ends`, for a next state that is given: the instruction's effect, which keeps the status, or fault entry. -/
theorem exec_cases {i : Instr} {s t : State} (h : exec i s = .next t) :
    (faultOf i s = none ∧ KeepsStatus s t) ∨
      ∃ code info, faultOf i s = some (code, info) ∧
        t = s.takeFault code (BitVec.ofNat 17 info) (s.pc - 2#16) (encode i) := by
  rcases exec_ends i s with ⟨hf, u, hu, hk⟩ | ⟨code, info, hf, hr⟩
  · rw [hu] at h; cases h; exact .inl ⟨hf, hk⟩
  · rw [hr, raise] at h; cases h; exact .inr ⟨code, info, hf, rfl⟩

/-- Every instruction answers a next state. -/
theorem exec_answers (i : Instr) (s : State) : ∃ t, exec i s = .next t := by
  rcases exec_ends i s with ⟨_, t, ht, _⟩ | ⟨code, info, _, hr⟩
  · exact ⟨t, ht⟩
  · exact ⟨_, hr⟩

theorem overrunOf_eq_some (s : State) (c : Nat) (code : FaultCode) (info : Nat) :
    overrunOf s c = some (code, info) ↔
      code = .dataOutOfRange ∧ info = max s.index.toNat 0x1000 ∧ 0 < c ∧ 0x1000 < s.index.toNat + c := by
  unfold overrunOf
  cases h : checkRange s.index.toNat c with
  | none =>
    have := (checkRange_eq_none _ _).mp h
    simp only [Option.map_none, reduceCtorEq, false_iff]
    rintro ⟨_, _, _, _⟩; omega
  | some a =>
    obtain ⟨h0, h1, rfl⟩ := (checkRange_eq_some _ _ _).mp h
    simp only [Option.map_some, Option.some.injEq, Prod.mk.injEq, h0, h1, and_true, eq_comm]

theorem badKeyOf_eq_some (s : State) (x : Reg) (code : FaultCode) (info : Nat) :
    badKeyOf s x = some (code, info) ↔
      code = .keyIndexOutOfRange ∧ info = (s.reg x).toNat ∧ 0xF < (s.reg x).toNat := by
  unfold badKeyOf
  split <;> rename_i h
  · simp only [Option.some.injEq, Prod.mk.injEq, h, and_true, eq_comm]
  · simp only [reduceCtorEq, h, and_false]

/-- The instructions that raise a fault, each with its cause (R107). -/
theorem faultOf_eq_some (i : Instr) (s : State) (code : FaultCode) (info : Nat) :
    faultOf i s = some (code, info) ↔
      (∃ x, i = .ret x ∧ code = .stackUnderflow ∧ info = 0 ∧ s.sp.val = 0) ∨
      (∃ nnn, i = .call nnn ∧ code = .stackOverflow ∧ info = 16 ∧ s.sp.val = 16) ∨
      (∃ x, (i = .skp x ∨ i = .sknp x) ∧ code = .keyIndexOutOfRange ∧ info = (s.reg x).toNat ∧
        0xF < (s.reg x).toNat) ∨
      (∃ c, ((∃ x y n, i = .drw x y n ∧ c = n.toNat) ∨ (∃ x, i = .ldBVx x ∧ c = 3) ∨
          (∃ x, (i = .ldMemVx x ∨ i = .ldVxMem x) ∧ c = x.toNat + 1)) ∧
        code = .dataOutOfRange ∧ info = max s.index.toNat 0x1000 ∧ 0 < c ∧ 0x1000 < s.index.toNat + c) := by
  cases i
  case ret x => by_cases h : s.sp.val = 0 <;> simp [faultOf, h, eq_comm]
  case call nnn => by_cases h : s.sp.val = 16 <;> simp [faultOf, h, eq_comm]
  case skp x => simp [faultOf, badKeyOf_eq_some]
  case sknp x => simp [faultOf, badKeyOf_eq_some]
  case drw x y n => simp [faultOf, overrunOf_eq_some]
  case ldBVx x => simp [faultOf, overrunOf_eq_some]
  case ldMemVx x => simp [faultOf, overrunOf_eq_some]
  case ldVxMem x => simp [faultOf, overrunOf_eq_some]
  all_goals simp [faultOf]

/-- No instruction raises a fetch fault, and the code that an instruction raises is one of a fault. -/
theorem faultOf_code {i : Instr} {s : State} {code : FaultCode} {info : Nat} (h : faultOf i s = some (code, info)) :
    code ≠ .fetchOutOfRange ∧ code ≠ .noFault := by
  rcases (faultOf_eq_some i s code info).mp h with ⟨_, _, rfl, _⟩ | ⟨_, _, rfl, _⟩ | ⟨_, _, rfl, _⟩ | ⟨_, _, rfl, _⟩ <;>
    simp

/-! ## How a step ends -/

theorem FaultCode.isFault_iff (c : FaultCode) : c.isFault = true ↔ c ≠ .noFault := by
  cases c <;> simp [FaultCode.isFault]

theorem FaultCode.not_isFault_iff (c : FaultCode) : c.isFault = false ↔ c = .noFault := by
  cases c <;> simp [FaultCode.isFault]

/-- The four ends of a step (R62): nothing while halted, the fetch fault, the report of an unrecognized word, or the
decoded instruction. -/
theorem step_cases {s t : State} (h : step s = .next t) :
    (s.halted = true ∧ t = s) ∨
    (s.halted = false ∧ 0x0FFE < s.pc.toNat ∧
      t = s.takeFault .fetchOutOfRange (BitVec.ofNat 17 s.pc.toNat) s.pc 0#16) ∨
    (s.halted = false ∧ s.pc.toNat ≤ 0x0FFE ∧ dispatch (s.mem.fetch16 s.pc.toNat) = none ∧
      t = (s.advance.reportUnrecognized (s.mem.fetch16 s.pc.toNat) s.pc).countdown) ∨
    (s.halted = false ∧ s.pc.toNat ≤ 0x0FFE ∧ ∃ i u, decodeWord (s.mem.fetch16 s.pc.toNat) = .ok i ∧
      exec i s.advance.clearReport = .next u ∧ t = if u.halted then u else u.countdown) := by
  unfold step cycle at h
  split at h
  · rename_i hh; cases h; exact .inl ⟨hh, rfl⟩
  · rename_i hh
    have hh : s.halted = false := by simpa using hh
    split at h
    · rename_i hp; cases h; exact .inr (.inl ⟨hh, hp, rfl⟩)
    · rename_i hp
      split at h
      · rename_i i hd
        obtain ⟨u, hu⟩ := exec_answers i s.advance.clearReport
        rw [hu, finishCycle] at h
        cases h
        exact .inr (.inr (.inr ⟨hh, by omega, i, u, hd, hu, rfl⟩))
      · rename_i e hd
        cases h
        refine .inr (.inr (.inl ⟨hh, by omega, ?_, rfl⟩))
        unfold decodeWord at hd
        split at hd
        · cases hd
        · assumption

end Sys2Proof.Machine
end

