-- ==== Sys2Proof/Laws/PerInstr.lean ====
section
/-! SUPPORT. Statements made per instruction. `WellFormedness`: the way an instruction is written (R56) is well formed,
so every term of `Instr` is. `FixedBits`: the bits of an instruction's word that its row of spec/opcode_table.json
fixes are the row's `match` under its `mask`. -/

namespace Sys2Proof

theorem regOf_toNat (x : Reg) : regOf x.toNat = some x := by
  simp [regOf, x.isLt]

theorem byteOf_toNat (kk : Byte) : byteOf kk.toNat = some kk := by
  simp [byteOf, kk.isLt]

theorem addrOf_toNat (nnn : Addr) : addrOf nnn.toNat = some nnn := by
  simp [addrOf, nnn.isLt]

theorem nibbleOf_toNat (n : Nibble) : nibbleOf n.toNat = some n := by
  simp [nibbleOf, n.isLt]

/-! ## The bits of a format (R48) -/

theorem getLsbD_formatZ (x : Nibble) (sub : Byte) (k : Nat) :
    (formatZ x sub).getLsbD k =
      if k < 8 then sub.getLsbD k else if k - 8 < 4 then x.getLsbD (k - 8) else false := by
  unfold formatZ
  rw [BitVec.getLsbD_append, BitVec.getLsbD_append]
  simp

theorem getLsbD_formatA (op : BitVec 4) (nnn : Addr) (k : Nat) :
    (formatA op nnn).getLsbD k = if k < 12 then nnn.getLsbD k else op.getLsbD (k - 12) := by
  unfold formatA
  rw [BitVec.getLsbD_append]

theorem getLsbD_formatXK (op : BitVec 4) (x : Reg) (kk : Byte) (k : Nat) :
    (formatXK op x kk).getLsbD k =
      if k < 8 then kk.getLsbD k else if k - 8 < 4 then x.getLsbD (k - 8) else op.getLsbD (k - 8 - 4) := by
  unfold formatXK
  rw [BitVec.getLsbD_append, BitVec.getLsbD_append]

theorem getLsbD_formatXY (op : BitVec 4) (x y : Reg) (sub : BitVec 4) (k : Nat) :
    (formatXY op x y sub).getLsbD k =
      if k < 4 then sub.getLsbD k
      else if k - 4 < 4 then y.getLsbD (k - 4)
      else if k - 4 - 4 < 4 then x.getLsbD (k - 4 - 4) else op.getLsbD (k - 4 - 4 - 4) := by
  unfold formatXY
  rw [BitVec.getLsbD_append, BitVec.getLsbD_append, BitVec.getLsbD_append]

theorem getLsbD_formatXYN (x y : Reg) (n : Nibble) (k : Nat) :
    (formatXYN x y n).getLsbD k = (formatXY 0xD#4 x y n).getLsbD k := rfl

theorem getLsbD_formatX (op : BitVec 4) (x : Reg) (sub : Byte) (k : Nat) :
    (formatX op x sub).getLsbD k = (formatXK op x sub).getLsbD k := rfl

namespace Laws.WellFormedness

/-- The instruction, as it is written, is well formed. -/
def Statement (i : Instr) : Prop := i.wellFormed = true

/-- The instruction that a written instruction stands for: itself, with the nibble that is not written at 0. -/
def plain : Instr → Instr
  | .cls _ => .cls 0
  | .ret _ => .ret 0
  | i => i

/-- Writing an instruction and reading it back. -/
theorem toInstr_toAsm (i : Instr) : i.toAsm.toInstr = some (plain i) := by
  cases i <;>
    simp [Instr.toAsm, AsmLine.toInstr, withReg, withRegs, withRegByte, regOf_toNat, byteOf_toNat, addrOf_toNat,
      nibbleOf_toNat, plain]

theorem written (i : Instr) : i.wellFormed = true := by
  rw [Instr.wellFormed, AsmLine.wellFormed, toInstr_toAsm]; rfl

theorem cls (x : Nibble) : Statement (.cls x) := written _

theorem ret (x : Nibble) : Statement (.ret x) := written _

theorem jp (nnn : Addr) : Statement (.jp nnn) := written _

theorem call (nnn : Addr) : Statement (.call nnn) := written _

theorem seImm (x : Reg) (kk : Byte) : Statement (.seImm x kk) := written _

theorem sneImm (x : Reg) (kk : Byte) : Statement (.sneImm x kk) := written _

theorem seReg (x : Reg) (y : Reg) : Statement (.seReg x y) := written _

theorem ldImm (x : Reg) (kk : Byte) : Statement (.ldImm x kk) := written _

theorem addImm (x : Reg) (kk : Byte) : Statement (.addImm x kk) := written _

theorem ldReg (x : Reg) (y : Reg) : Statement (.ldReg x y) := written _

theorem orReg (x : Reg) (y : Reg) : Statement (.orReg x y) := written _

theorem andReg (x : Reg) (y : Reg) : Statement (.andReg x y) := written _

theorem xorReg (x : Reg) (y : Reg) : Statement (.xorReg x y) := written _

theorem addReg (x : Reg) (y : Reg) : Statement (.addReg x y) := written _

theorem subReg (x : Reg) (y : Reg) : Statement (.subReg x y) := written _

theorem shr (x : Reg) (y : Reg) : Statement (.shr x y) := written _

theorem subnReg (x : Reg) (y : Reg) : Statement (.subnReg x y) := written _

theorem shl (x : Reg) (y : Reg) : Statement (.shl x y) := written _

theorem sneReg (x : Reg) (y : Reg) : Statement (.sneReg x y) := written _

theorem ldI (nnn : Addr) : Statement (.ldI nnn) := written _

theorem jpV0 (nnn : Addr) : Statement (.jpV0 nnn) := written _

theorem rnd (x : Reg) (kk : Byte) : Statement (.rnd x kk) := written _

theorem drw (x : Reg) (y : Reg) (n : Nibble) : Statement (.drw x y n) := written _

theorem skp (x : Reg) : Statement (.skp x) := written _

theorem sknp (x : Reg) : Statement (.sknp x) := written _

theorem ldVxDt (x : Reg) : Statement (.ldVxDt x) := written _

theorem ldVxK (x : Reg) : Statement (.ldVxK x) := written _

theorem ldDtVx (x : Reg) : Statement (.ldDtVx x) := written _

theorem ldStVx (x : Reg) : Statement (.ldStVx x) := written _

theorem addIVx (x : Reg) : Statement (.addIVx x) := written _

theorem ldFVx (x : Reg) : Statement (.ldFVx x) := written _

theorem ldBVx (x : Reg) : Statement (.ldBVx x) := written _

theorem ldMemVx (x : Reg) : Statement (.ldMemVx x) := written _

theorem ldVxMem (x : Reg) : Statement (.ldVxMem x) := written _

end Laws.WellFormedness

namespace Laws.FixedBits

/-- The mask and match of the instruction's row in spec/opcode_table.json. -/
def row : Instr → Word × Word
  | .cls _ => (0xF0FF#16, 0x00E0#16)
  | .ret _ => (0xF0FF#16, 0x00EE#16)
  | .jp _ => (0xF000#16, 0x1000#16)
  | .call _ => (0xF000#16, 0x2000#16)
  | .seImm _ _ => (0xF000#16, 0x3000#16)
  | .sneImm _ _ => (0xF000#16, 0x4000#16)
  | .seReg _ _ => (0xF00F#16, 0x5000#16)
  | .ldImm _ _ => (0xF000#16, 0x6000#16)
  | .addImm _ _ => (0xF000#16, 0x7000#16)
  | .ldReg _ _ => (0xF00F#16, 0x8000#16)
  | .orReg _ _ => (0xF00F#16, 0x8001#16)
  | .andReg _ _ => (0xF00F#16, 0x8002#16)
  | .xorReg _ _ => (0xF00F#16, 0x8003#16)
  | .addReg _ _ => (0xF00F#16, 0x8004#16)
  | .subReg _ _ => (0xF00F#16, 0x8005#16)
  | .shr _ _ => (0xF00F#16, 0x8006#16)
  | .subnReg _ _ => (0xF00F#16, 0x8007#16)
  | .shl _ _ => (0xF00F#16, 0x800E#16)
  | .sneReg _ _ => (0xF00F#16, 0x9000#16)
  | .ldI _ => (0xF000#16, 0xA000#16)
  | .jpV0 _ => (0xF000#16, 0xB000#16)
  | .rnd _ _ => (0xF000#16, 0xC000#16)
  | .drw _ _ _ => (0xF000#16, 0xD000#16)
  | .skp _ => (0xF0FF#16, 0xE09E#16)
  | .sknp _ => (0xF0FF#16, 0xE0A1#16)
  | .ldVxDt _ => (0xF0FF#16, 0xF007#16)
  | .ldVxK _ => (0xF0FF#16, 0xF00A#16)
  | .ldDtVx _ => (0xF0FF#16, 0xF015#16)
  | .ldStVx _ => (0xF0FF#16, 0xF018#16)
  | .addIVx _ => (0xF0FF#16, 0xF01E#16)
  | .ldFVx _ => (0xF0FF#16, 0xF029#16)
  | .ldBVx _ => (0xF0FF#16, 0xF033#16)
  | .ldMemVx _ => (0xF0FF#16, 0xF055#16)
  | .ldVxMem _ => (0xF0FF#16, 0xF065#16)

/-- The instruction's word carries its row's fixed bits. -/
def Statement (i : Instr) : Prop := encode i &&& (row i).1 = (row i).2

theorem and_formatZ (x : Nibble) (sub : Byte) : formatZ x sub &&& 0xF0FF#16 = formatZ 0#4 sub := by
  refine BitVec.eq_of_getLsbD_eq fun k hk => ?_
  rw [BitVec.getLsbD_and, getLsbD_formatZ, getLsbD_formatZ]
  interval_cases k <;> simp

theorem and_formatA (op : BitVec 4) (nnn : Addr) : formatA op nnn &&& 0xF000#16 = formatA op 0#12 := by
  refine BitVec.eq_of_getLsbD_eq fun k hk => ?_
  rw [BitVec.getLsbD_and, getLsbD_formatA, getLsbD_formatA]
  interval_cases k <;> simp

theorem and_formatXK (op : BitVec 4) (x : Reg) (kk : Byte) :
    formatXK op x kk &&& 0xF000#16 = formatXK op 0#4 0#8 := by
  refine BitVec.eq_of_getLsbD_eq fun k hk => ?_
  rw [BitVec.getLsbD_and, getLsbD_formatXK, getLsbD_formatXK]
  interval_cases k <;> simp

theorem and_formatXY (op : BitVec 4) (x y : Reg) (sub : BitVec 4) :
    formatXY op x y sub &&& 0xF00F#16 = formatXY op 0#4 0#4 sub := by
  refine BitVec.eq_of_getLsbD_eq fun k hk => ?_
  rw [BitVec.getLsbD_and, getLsbD_formatXY, getLsbD_formatXY]
  interval_cases k <;> simp

theorem and_formatXYN (x y : Reg) (n : Nibble) : formatXYN x y n &&& 0xF000#16 = formatXYN 0#4 0#4 0#4 := by
  refine BitVec.eq_of_getLsbD_eq fun k hk => ?_
  rw [BitVec.getLsbD_and, getLsbD_formatXYN, getLsbD_formatXYN, getLsbD_formatXY, getLsbD_formatXY]
  interval_cases k <;> simp

theorem and_formatX (op : BitVec 4) (x : Reg) (sub : Byte) : formatX op x sub &&& 0xF0FF#16 = formatX op 0#4 sub := by
  refine BitVec.eq_of_getLsbD_eq fun k hk => ?_
  rw [BitVec.getLsbD_and, getLsbD_formatX, getLsbD_formatX, getLsbD_formatXK, getLsbD_formatXK]
  interval_cases k <;> simp

theorem cls (x : Nibble) : Statement (.cls x) := (and_formatZ _ _).trans rfl

theorem ret (x : Nibble) : Statement (.ret x) := (and_formatZ _ _).trans rfl

theorem jp (nnn : Addr) : Statement (.jp nnn) := (and_formatA _ _).trans rfl

theorem call (nnn : Addr) : Statement (.call nnn) := (and_formatA _ _).trans rfl

theorem seImm (x : Reg) (kk : Byte) : Statement (.seImm x kk) := (and_formatXK _ _ _).trans rfl

theorem sneImm (x : Reg) (kk : Byte) : Statement (.sneImm x kk) := (and_formatXK _ _ _).trans rfl

theorem seReg (x : Reg) (y : Reg) : Statement (.seReg x y) := (and_formatXY _ _ _ _).trans rfl

theorem ldImm (x : Reg) (kk : Byte) : Statement (.ldImm x kk) := (and_formatXK _ _ _).trans rfl

theorem addImm (x : Reg) (kk : Byte) : Statement (.addImm x kk) := (and_formatXK _ _ _).trans rfl

theorem ldReg (x : Reg) (y : Reg) : Statement (.ldReg x y) := (and_formatXY _ _ _ _).trans rfl

theorem orReg (x : Reg) (y : Reg) : Statement (.orReg x y) := (and_formatXY _ _ _ _).trans rfl

theorem andReg (x : Reg) (y : Reg) : Statement (.andReg x y) := (and_formatXY _ _ _ _).trans rfl

theorem xorReg (x : Reg) (y : Reg) : Statement (.xorReg x y) := (and_formatXY _ _ _ _).trans rfl

theorem addReg (x : Reg) (y : Reg) : Statement (.addReg x y) := (and_formatXY _ _ _ _).trans rfl

theorem subReg (x : Reg) (y : Reg) : Statement (.subReg x y) := (and_formatXY _ _ _ _).trans rfl

theorem shr (x : Reg) (y : Reg) : Statement (.shr x y) := (and_formatXY _ _ _ _).trans rfl

theorem subnReg (x : Reg) (y : Reg) : Statement (.subnReg x y) := (and_formatXY _ _ _ _).trans rfl

theorem shl (x : Reg) (y : Reg) : Statement (.shl x y) := (and_formatXY _ _ _ _).trans rfl

theorem sneReg (x : Reg) (y : Reg) : Statement (.sneReg x y) := (and_formatXY _ _ _ _).trans rfl

theorem ldI (nnn : Addr) : Statement (.ldI nnn) := (and_formatA _ _).trans rfl

theorem jpV0 (nnn : Addr) : Statement (.jpV0 nnn) := (and_formatA _ _).trans rfl

theorem rnd (x : Reg) (kk : Byte) : Statement (.rnd x kk) := (and_formatXK _ _ _).trans rfl

theorem drw (x : Reg) (y : Reg) (n : Nibble) : Statement (.drw x y n) := (and_formatXYN _ _ _).trans rfl

theorem skp (x : Reg) : Statement (.skp x) := (and_formatX _ _ _).trans rfl

theorem sknp (x : Reg) : Statement (.sknp x) := (and_formatX _ _ _).trans rfl

theorem ldVxDt (x : Reg) : Statement (.ldVxDt x) := (and_formatX _ _ _).trans rfl

theorem ldVxK (x : Reg) : Statement (.ldVxK x) := (and_formatX _ _ _).trans rfl

theorem ldDtVx (x : Reg) : Statement (.ldDtVx x) := (and_formatX _ _ _).trans rfl

theorem ldStVx (x : Reg) : Statement (.ldStVx x) := (and_formatX _ _ _).trans rfl

theorem addIVx (x : Reg) : Statement (.addIVx x) := (and_formatX _ _ _).trans rfl

theorem ldFVx (x : Reg) : Statement (.ldFVx x) := (and_formatX _ _ _).trans rfl

theorem ldBVx (x : Reg) : Statement (.ldBVx x) := (and_formatX _ _ _).trans rfl

theorem ldMemVx (x : Reg) : Statement (.ldMemVx x) := (and_formatX _ _ _).trans rfl

theorem ldVxMem (x : Reg) : Statement (.ldVxMem x) := (and_formatX _ _ _).trans rfl

end Laws.FixedBits

end Sys2Proof
end

