-- ==== Sys2Proof/Tests/Slice0.lean ====
section
/-! SUPPORT. Tests of one step each, and witnesses of the hypotheses of the obligations. Expected results are those of
spec/95_test_vectors.md, whose vectors the comments name, or are read from the rule that is named. -/

open Sys2Proof Sys2Proof.Machine Sys2Proof.Claims

namespace Sys2Proof.Tests

/-! ## Helpers -/

/-- The next state of a result, if it is one. -/
def nextOf : Result → Option State
  | .next t => some t
  | .fault _ => none
  | .refused _ => none

/-- What is seen of the state after one step from `s` with the word `w` placed where it fetches. -/
def seen {α : Type} (s : State) (w : Nat) (look : State → α) : Option α :=
  (nextOf (step (s.withFetchWord 16 w))).map look

/-- Power-on with some registers written. -/
def regs (values : List (Reg × Byte)) : State :=
  values.foldl (fun s r => s.setReg r.1 r.2) State.reset

/-- A state with bytes in memory from an address on. -/
def put (s : State) (a : Nat) (bytes : List Byte) : State :=
  s.setMem (s.mem.writeBytes a bytes)

/-- A state with some pixels toggled. -/
def lit (s : State) (pixels : List (Nat × Nat)) : State :=
  s.setDisp (pixels.foldl (fun d p => d.flip p.1 p.2) s.disp)

/-- A state with a number of stack entries in use. -/
def deep (s : State) (n : Fin 17) : State := { s with sp := n }

/-- The fault record, and `pc`. -/
def faultSeen (t : State) : FaultRecord × Word := (t.fault, t.pc)

/-- What the unrecognized-opcode report shows, with `pc`. -/
def reportSeen (t : State) : Bool × Word × Word × Word :=
  (t.report.unrecognized, t.report.opcode, t.report.pc, t.pc)

/-! ## Well-formedness (R49, R56): an ill-formed line for each check -/

theorem test_wellFormed_refuses_a_register_above_VF :
    (AsmLine.mk .SKP [.v 16]).wellFormed = false ∧ (AsmLine.mk .SKP [.v 15]).wellFormed = true := by decide

theorem test_wellFormed_refuses_a_byte_above_FF :
    (AsmLine.mk .LD [.v 0, .num 256]).wellFormed = false ∧ (AsmLine.mk .LD [.v 0, .num 255]).wellFormed = true := by
  decide

theorem test_wellFormed_refuses_an_address_above_FFF :
    (AsmLine.mk .JP [.num 4096]).wellFormed = false ∧ (AsmLine.mk .JP [.num 4095]).wellFormed = true := by decide

theorem test_wellFormed_refuses_a_count_above_15 :
    (AsmLine.mk .DRW [.v 0, .v 1, .num 16]).wellFormed = false ∧
    (AsmLine.mk .DRW [.v 0, .v 1, .num 15]).wellFormed = true := by decide

theorem test_wellFormed_refuses_wrong_operands :
    (AsmLine.mk .CLS [.v 0]).wellFormed = false ∧ (AsmLine.mk .ADD [.DT, .v 0]).wellFormed = false ∧
    (AsmLine.mk .OR [.v 0]).wellFormed = false ∧ (AsmLine.mk .JP [.v 1, .num 0x200]).wellFormed = false := by decide

/-! ## Decoding: every constructor, by a word written out from R51 -/

theorem test_decode_display : decodeWord 0b0000000011100000#16 = .ok (.cls 0x0#4) ∧
    decodeWord 0b1101000100101111#16 = .ok (.drw 0x1#4 0x2#4 0xF#4) := by decide

theorem test_decode_control : decodeWord 0b0000000011101110#16 = .ok (.ret 0x0#4) ∧
    decodeWord 0b0001101010111100#16 = .ok (.jp 0xABC#12) ∧
    decodeWord 0b0010001100000001#16 = .ok (.call 0x301#12) ∧
    decodeWord 0b1011001100000001#16 = .ok (.jpV0 0x301#12) := by decide

theorem test_decode_skips : decodeWord 0b0011101001000010#16 = .ok (.seImm 0xA#4 0x42#8) ∧
    decodeWord 0b0100101001000010#16 = .ok (.sneImm 0xA#4 0x42#8) ∧
    decodeWord 0b0101101010110000#16 = .ok (.seReg 0xA#4 0xB#4) ∧
    decodeWord 0b1001101010110000#16 = .ok (.sneReg 0xA#4 0xB#4) ∧
    decodeWord 0b1110001110011110#16 = .ok (.skp 0x3#4) ∧
    decodeWord 0b1110001110100001#16 = .ok (.sknp 0x3#4) := by decide

theorem test_decode_loads : decodeWord 0b0110101001011100#16 = .ok (.ldImm 0xA#4 0x5C#8) ∧
    decodeWord 0b0111101001011100#16 = .ok (.addImm 0xA#4 0x5C#8) ∧
    decodeWord 0b1000101010110000#16 = .ok (.ldReg 0xA#4 0xB#4) ∧
    decodeWord 0b1100101000001111#16 = .ok (.rnd 0xA#4 0x0F#8) := by decide

theorem test_decode_alu : decodeWord 0b1000101010110001#16 = .ok (.orReg 0xA#4 0xB#4) ∧
    decodeWord 0b1000101010110010#16 = .ok (.andReg 0xA#4 0xB#4) ∧
    decodeWord 0b1000101010110011#16 = .ok (.xorReg 0xA#4 0xB#4) ∧
    decodeWord 0b1000101010110100#16 = .ok (.addReg 0xA#4 0xB#4) ∧
    decodeWord 0b1000101010110101#16 = .ok (.subReg 0xA#4 0xB#4) ∧
    decodeWord 0b1000101010110110#16 = .ok (.shr 0xA#4 0xB#4) ∧
    decodeWord 0b1000101010110111#16 = .ok (.subnReg 0xA#4 0xB#4) ∧
    decodeWord 0b1000101010111110#16 = .ok (.shl 0xA#4 0xB#4) := by decide

theorem test_decode_index_and_memory : decodeWord 0b1010001011110000#16 = .ok (.ldI 0x2F0#12) ∧
    decodeWord 0b1111001000011110#16 = .ok (.addIVx 0x2#4) ∧
    decodeWord 0b1111001000101001#16 = .ok (.ldFVx 0x2#4) ∧
    decodeWord 0b1111001000110011#16 = .ok (.ldBVx 0x2#4) ∧
    decodeWord 0b1111001001010101#16 = .ok (.ldMemVx 0x2#4) ∧
    decodeWord 0b1111001001100101#16 = .ok (.ldVxMem 0x2#4) := by decide

theorem test_decode_timers_and_keys : decodeWord 0b1111010000000111#16 = .ok (.ldVxDt 0x4#4) ∧
    decodeWord 0b1111010000001010#16 = .ok (.ldVxK 0x4#4) ∧
    decodeWord 0b1111010000010101#16 = .ok (.ldDtVx 0x4#4) ∧
    decodeWord 0b1111010000011000#16 = .ok (.ldStVx 0x4#4) := by decide

/-- R53's aliases, and CF2's jump that is none. -/
theorem test_decode_aliases : decodeWord 0x01E0#16 = .ok (.cls 0x1#4) ∧ decodeWord 0x05EE#16 = .ok (.ret 0x5#4) ∧
    decodeWord 0x10EE#16 = .ok (.jp 0x0EE#12) := by decide

/-- The bytes of a word lie in memory high byte first (S12, R36, R47), and one byte is no instruction. -/
theorem test_decode_bytes : decode [0x12#8, 0x34#8, 0x56#8] = .ok (.jp 0x234#12, [0x56#8]) ∧
    decode [0x12#8] = .error .truncated ∧ decodeTableWord 16 0x6A5C = some (.ldImm 0xA#4 0x5C#8) ∧
    decodeTableWord 16 0x5551 = none := by decide

/-! ## Control transfer -/

/-- CF1. -/
theorem test_jp : seen State.reset 0x1ABC (·.pc) = some 0x0ABC#16 := by decide

/-- CF3. -/
theorem test_call : seen State.reset 0x2300 (fun t => (t.stack[0], t.sp.val, t.pc)) = some (0x0202#16, 1, 0x0300#16) := by
  decide

/-- CF4. -/
theorem test_call_overflow : seen (deep State.reset 16) 0x2300 faultSeen =
    some (⟨.stackOverflow, 0x0200#16, 0x2300#16, 16#17⟩, 0x0200#16) := by decide

/-- CF7: by the alias 05EE; the entry is kept (CF5). -/
theorem test_ret : seen { State.reset with sp := 1, stack := State.reset.stack.set 0 0x0400#16 } 0x05EE
    (fun t => (t.pc, t.sp.val, t.stack[0])) = some (0x0400#16, 0, 0x0400#16) := by decide

/-- CF6 and TK13: the timer of a faulting cycle is not counted. -/
theorem test_ret_underflow : seen { State.reset with dt := 3#8 } 0x00EE (fun t => (faultSeen t, t.dt)) =
    some ((⟨.stackUnderflow, 0x0200#16, 0x00EE#16, 0#17⟩, 0x0200#16), 3#8) := by decide

/-- CF9. -/
theorem test_jpV0 : seen (regs [(0x0#4, 0xFF#8)]) 0xBFFF (·.pc) = some 0x10FE#16 := by decide

/-! ## Skips -/

/-- SK1, SK2. -/
theorem test_seImm : seen (regs [(0xA#4, 0x42#8)]) 0x3A42 (·.pc) = some 0x0204#16 ∧
    seen (regs [(0xA#4, 0x41#8)]) 0x3A42 (·.pc) = some 0x0202#16 := by decide

/-- SK3, SK4. -/
theorem test_sneImm : seen (regs [(0xA#4, 0x42#8)]) 0x4A42 (·.pc) = some 0x0202#16 ∧
    seen State.reset 0x4A42 (·.pc) = some 0x0204#16 := by decide

/-- SK5, and from R77 the skip that is not taken. -/
theorem test_seReg : seen (regs [(0xA#4, 7#8), (0xB#4, 7#8)]) 0x5AB0 (·.pc) = some 0x0204#16 ∧
    seen (regs [(0xA#4, 7#8), (0xB#4, 8#8)]) 0x5AB0 (·.pc) = some 0x0202#16 := by decide

/-- SK7, SK8. -/
theorem test_sneReg : seen (regs [(0xA#4, 1#8), (0xB#4, 2#8)]) 0x9AB0 (·.pc) = some 0x0204#16 ∧
    seen (regs [(0xA#4, 2#8), (0xB#4, 2#8)]) 0x9AB0 (·.pc) = some 0x0202#16 := by decide

/-- SK10, SK11. -/
theorem test_skp : seen ((regs [(0x3#4, 5#8)]).writeKeypad 0x0020#16) 0xE39E (·.pc) = some 0x0204#16 ∧
    seen (regs [(0x3#4, 5#8)]) 0xE39E (·.pc) = some 0x0202#16 := by decide

/-- SK12, SK13. -/
theorem test_sknp : seen (regs [(0x3#4, 5#8)]) 0xE3A1 (·.pc) = some 0x0204#16 ∧
    seen ((regs [(0x3#4, 5#8)]).writeKeypad 0x0020#16) 0xE3A1 (·.pc) = some 0x0202#16 := by decide

/-- SK14, SK15. -/
theorem test_bad_key : seen (regs [(0x3#4, 0x10#8)]) 0xE39E faultSeen =
      some (⟨.keyIndexOutOfRange, 0x0200#16, 0xE39E#16, 0x10#17⟩, 0x0200#16) ∧
    seen (regs [(0x3#4, 0xFF#8)]) 0xE3A1 faultSeen =
      some (⟨.keyIndexOutOfRange, 0x0200#16, 0xE3A1#16, 0xFF#17⟩, 0x0200#16) := by decide

/-! ## Registers and ALU -/

/-- AL1. -/
theorem test_ldImm : seen State.reset 0x6A5C (fun t => (t.reg 0xA#4, t.pc)) = some (0x5C#8, 0x0202#16) := by decide

/-- AL2. -/
theorem test_addImm : seen (regs [(0xA#4, 1#8), (0xF#4, 0x77#8)]) 0x7AFF (fun t => (t.reg 0xA#4, t.reg 0xF#4)) =
    some (0#8, 0x77#8) := by decide

/-- AL3. -/
theorem test_ldReg : seen (regs [(0x5#4, 0x33#8)]) 0x8150 (fun t => (t.reg 0x1#4, t.reg 0x5#4)) =
    some (0x33#8, 0x33#8) := by decide

/-- AL4. -/
theorem test_orReg : seen (regs [(0x0#4, 0x0F#8), (0x1#4, 0xF0#8), (0xF#4, 0x77#8)]) 0x8011
    (fun t => (t.reg 0x0#4, t.reg 0x1#4, t.reg 0xF#4)) = some (0xFF#8, 0xF0#8, 0x77#8) := by decide

/-- AL5. -/
theorem test_andReg : seen (regs [(0x0#4, 0x3C#8), (0x1#4, 0x0F#8)]) 0x8012 (·.reg 0x0#4) = some 0x0C#8 := by decide

/-- AL6. -/
theorem test_xorReg : seen (regs [(0x0#4, 0x3C#8), (0x1#4, 0x0F#8)]) 0x8013 (·.reg 0x0#4) = some 0x33#8 := by decide

/-- S3 and AL10: with `x = F` the result wins. -/
theorem test_addReg : seen (regs [(0xA#4, 0xC8#8), (0xB#4, 0x64#8)]) 0x8AB4 (fun t => (t.reg 0xA#4, t.reg 0xF#4)) =
      some (0x2C#8, 1#8) ∧
    seen (regs [(0xF#4, 0xFF#8), (0xA#4, 1#8)]) 0x8FA4 (·.reg 0xF#4) = some 0#8 := by decide

/-- AL11: with `y = F` the old `VF` is the operand. -/
theorem test_addReg_from_VF : seen (regs [(0xA#4, 0x10#8), (0xF#4, 0x20#8)]) 0x8AF4
    (fun t => (t.reg 0xA#4, t.reg 0xF#4)) = some (0x30#8, 0#8) := by decide

/-- S4. -/
theorem test_subReg : seen (regs [(0xA#4, 3#8), (0xB#4, 0x0A#8)]) 0x8AB5 (fun t => (t.reg 0xA#4, t.reg 0xF#4)) =
    some (0xF9#8, 0#8) := by decide

/-- AL12: equality gives the flag 0. -/
theorem test_subReg_equal : seen (regs [(0xA#4, 5#8), (0xB#4, 5#8), (0xF#4, 1#8)]) 0x8AB5
    (fun t => (t.reg 0xA#4, t.reg 0xF#4)) = some (0#8, 0#8) := by decide

/-- AL14, AL16. -/
theorem test_shr : seen (regs [(0xA#4, 5#8), (0xB#4, 0xFF#8)]) 0x8AB6 (fun t => (t.reg 0xA#4, t.reg 0xF#4)) =
      some (2#8, 1#8) ∧
    seen (regs [(0xF#4, 0x81#8)]) 0x8FF6 (·.reg 0xF#4) = some 0x40#8 := by decide

/-- AL17, AL18. -/
theorem test_subnReg : seen (regs [(0xA#4, 3#8), (0xB#4, 0x0A#8)]) 0x8AB7 (fun t => (t.reg 0xA#4, t.reg 0xF#4)) =
      some (7#8, 1#8) ∧
    seen (regs [(0xA#4, 0x0A#8), (0xB#4, 3#8)]) 0x8AB7 (fun t => (t.reg 0xA#4, t.reg 0xF#4)) =
      some (0xF9#8, 0#8) := by decide

/-- AL20, AL21. -/
theorem test_shl : seen (regs [(0xA#4, 0x81#8)]) 0x8ABE (fun t => (t.reg 0xA#4, t.reg 0xF#4)) = some (2#8, 1#8) ∧
    seen (regs [(0xA#4, 0x40#8)]) 0x8ABE (fun t => (t.reg 0xA#4, t.reg 0xF#4)) = some (0x80#8, 0#8) := by decide

/-- AL24: a mask of 0 gives 0, whatever the draw is. -/
theorem test_rnd_mask_0 : seen (regs [(0xA#4, 5#8)]) 0xCA00 (·.reg 0xA#4) = some 0#8 := by
  have masked : ∀ draw : Byte, draw &&& 0#8 = 0#8 := by simp
  exact congrArg some (masked (Config.randByte 0))

/-! ## Index register and memory -/

/-- IM1. -/
theorem test_ldI : seen State.reset 0xA2F0 (·.index) = some 0x02F0#16 := by decide

/-- IM3, IM4. -/
theorem test_addIVx : seen ((regs [(0x2#4, 1#8), (0xF#4, 7#8)]).setIndex 0x0FFF#16) 0xF21E
      (fun t => (t.index, t.reg 0xF#4, t.halted)) = some (0x1000#16, 7#8, false) ∧
    seen ((regs [(0x2#4, 2#8)]).setIndex 0xFFFF#16) 0xF21E (·.index) = some 0x0001#16 := by decide

/-- IM5, IM7. -/
theorem test_ldFVx : seen (regs [(0x0#4, 0x0A#8)]) 0xF029 (·.index) = some 0x0082#16 ∧
    seen (regs [(0x0#4, 0xFF#8)]) 0xF029 (·.index) = some 0x054B#16 := by decide

/-- IM10. -/
theorem test_ldBVx : seen ((regs [(0x0#4, 0x7B#8)]).setIndex 0x0FFD#16) 0xF033
    (fun t => (t.mem.readBytes 0xFFD 3, t.index)) = some ([1#8, 2#8, 3#8], 0x0FFD#16) := by decide

/-- IM11: nothing is written. -/
theorem test_ldBVx_fault : seen ((regs [(0x0#4, 1#8)]).setIndex 0x0FFE#16) 0xF033
    (fun t => (faultSeen t, t.mem.readBytes 0xFFE 2)) =
      some ((⟨.dataOutOfRange, 0x0200#16, 0xF033#16, 0x1000#17⟩, 0x0200#16), [0#8, 0#8]) := by decide

/-- IM12: `I` is unchanged, and so is the byte after the last one stored. -/
theorem test_ldMemVx : seen ((regs [(0x0#4, 1#8), (0x1#4, 2#8), (0x2#4, 3#8), (0x3#4, 4#8)]).setIndex 0x0300#16) 0xF255
    (fun t => (t.mem.readBytes 0x300 4, t.index)) = some ([1#8, 2#8, 3#8, 0#8], 0x0300#16) := by decide

/-- IM14, IM15. -/
theorem test_ldMemVx_fault : seen (State.reset.setIndex 0x0FF1#16) 0xFF55 faultSeen =
      some (⟨.dataOutOfRange, 0x0200#16, 0xFF55#16, 0x1000#17⟩, 0x0200#16) ∧
    seen (State.reset.setIndex 0x1000#16) 0xF055 faultSeen =
      some (⟨.dataOutOfRange, 0x0200#16, 0xF055#16, 0x1000#17⟩, 0x0200#16) := by decide

/-- IM16. -/
theorem test_ldVxMem : seen (put (State.reset.setIndex 0x0300#16) 0x300 [2#8, 3#8, 4#8, 5#8]) 0xF265
    (fun t => (t.reg 0x0#4, t.reg 0x1#4, t.reg 0x2#4, t.reg 0x3#4, t.index)) =
      some (2#8, 3#8, 4#8, 0#8, 0x0300#16) := by decide

/-- IM19: `fault_info` is `max(I, 0x1000)`. -/
theorem test_ldVxMem_fault : seen (State.reset.setIndex 0x2000#16) 0xF065 faultSeen =
    some (⟨.dataOutOfRange, 0x0200#16, 0xF065#16, 0x2000#17⟩, 0x0200#16) := by decide

/-! ## Timers and key wait -/

/-- TK1. -/
theorem test_ldVxDt : seen { State.reset with dt := 0x10#8 } 0xF407 (fun t => (t.reg 0x4#4, t.dt)) =
    some (0x10#8, 0x0F#8) := by decide

/-- TK3, TK4. -/
theorem test_ldDtVx : seen (regs [(0x3#4, 3#8)]) 0xF315 (·.dt) = some 2#8 ∧
    seen { State.reset with dt := 9#8 } 0xF315 (·.dt) = some 0#8 := by decide

/-- TK5, TK6. -/
theorem test_ldStVx : seen (regs [(0x6#4, 0x3C#8)]) 0xF618 (fun t => (t.st, t.soundActive)) = some (0x3B#8, true) ∧
    seen (regs [(0x6#4, 1#8)]) 0xF618 (fun t => (t.st, t.soundActive)) = some (0#8, false) := by decide

/-- TK7: no key. -/
theorem test_ldVxK_waits : seen { State.reset with dt := 5#8 } 0xF50A (fun t => (t.pc, t.dt)) =
    some (0x0200#16, 4#8) := by decide

/-- TK8, TK10. -/
theorem test_ldVxK_takes : seen (State.reset.writeKeypad 0x0204#16) 0xF50A (fun t => (t.reg 0x5#4, t.pc)) =
      some (9#8, 0x0202#16) ∧
    seen (State.reset.writeKeypad 0x8001#16) 0xF50A (·.reg 0x5#4) = some 0xF#8 := by decide

/-! ## Display -/

/-- DS1, DS2. -/
theorem test_cls : seen (lit State.reset [(0, 0), (63, 31)]) 0x00E0 (·.disp) = some Display.clear ∧
    seen (lit State.reset [(3, 3)]) 0x01E0 (·.disp) = some Display.clear := by decide

/-- The start state of DS3. -/
def corner : State := put ((regs [(0x1#4, 0x7E#8), (0x2#4, 0x3F#8)]).setIndex 0x0300#16) 0x300 [0xC3#8]

/-- DS3, DS4. -/
theorem test_drw_clips : seen corner 0xD121 (fun t => (t.disp, t.reg 0xF#4)) =
      some ((lit State.reset [(62, 31), (63, 31)]).disp, 0#8) ∧
    seen (lit corner [(62, 31), (63, 31)]) 0xD121 (fun t => (t.disp, t.reg 0xF#4)) = some (Display.clear, 1#8) := by
  decide

/-- DS6: the origin comes from `VF` before the reset of the flag; DS8: nothing is written by a fault. -/
theorem test_drw_VF : seen (put ((regs [(0xF#4, 5#8)]).setIndex 0x0300#16) 0x300 [0x80#8]) 0xDFF1
      (fun t => (t.disp, t.reg 0xF#4)) = some ((lit State.reset [(5, 5)]).disp, 0#8) ∧
    seen ((regs [(0xF#4, 7#8)]).setIndex 0x0FFE#16) 0xD003 (fun t => (faultSeen t, t.reg 0xF#4)) =
      some ((⟨.dataOutOfRange, 0x0200#16, 0xD003#16, 0x1000#17⟩, 0x0200#16), 7#8) := by decide

/-- DS12: the default `FONT_ROM` (log entry 2). -/
theorem test_font : seen (State.reset.setIndex 0x0050#16) 0xD005 (·.disp) =
    some (lit State.reset ([(0, 0), (1, 0), (2, 0), (3, 0)] ++ [(0, 1), (3, 1), (0, 2), (3, 2), (0, 3), (3, 3)] ++
      [(0, 4), (1, 4), (2, 4), (3, 4)])).disp := by decide

/-! ## The cycle and the host -/

/-- FD1: an odd `pc`. -/
theorem test_odd_pc : seen { State.reset with pc := 0x0201#16 } 0x6012 (fun t => (t.reg 0x0#4, t.pc)) =
    some (0x12#8, 0x0203#16) := by decide

/-- FD3. -/
theorem test_fetch_fault : (nextOf (step { State.reset with pc := 0x0FFF#16 })).map faultSeen =
    some (⟨.fetchOutOfRange, 0x0FFF#16, 0#16, 0x0FFF#17⟩, 0x0FFF#16) := by decide

/-- S10 and TK12. -/
theorem test_unrecognized : seen State.reset 0x5551 reportSeen = some (true, 0x5551#16, 0x0200#16, 0x0202#16) ∧
    seen { State.reset with dt := 3#8, st := 1#8 } 0xFFFF (fun t => (t.pc, t.dt, t.st)) =
      some (0x0202#16, 2#8, 0#8) := by decide

/-- FD8. -/
theorem test_report_is_cleared : seen { State.reset with report := ⟨true, 0x5551#16, 0x0200#16⟩ } 0x6000 reportSeen =
    some (false, 0#16, 0#16, 0x0202#16) := by decide

/-- FD7: an oversize image. -/
theorem test_oversize_image (s : State) (bytes : List Byte) (h : bytes.length = 3585) :
    s.romLoad (some bytes) = (.refused, s.hostReset) := by
  simp [State.romLoad, h]

/-- S12 and R125: a loaded word is fetched high byte first. -/
theorem test_romLoad : (State.reset.romLoad (some [0x12#8, 0x34#8])).2.mem.fetch16 0x200 = 0x1234#16 := by decide

/-- The machine that the host reads runs a placed word first. -/
theorem test_core : (match core.step (core.reset.withFetchWord 16 0x1ABC) with
    | .next t => some t.pc | .fault _ => none | .refused _ => none) = some 0x0ABC#16 := by decide

/-! ## Witnesses: concrete states and operands that meet the hypotheses of the obligations -/

/-- A state that halted on a stack underflow at 0x200. -/
def stopped : State := State.reset.takeFault .stackUnderflow 0#17 0x0200#16 0x00EE#16

/-- Words of each of the six unrecognized classes. -/
theorem witness_UnrecognizedWordsAreExactlyTheListedOnes :
    [0x0000#16, 0x0FFF#16, 0x5001#16, 0x8008#16, 0x800F#16, 0x9001#16, 0xE09D#16, 0xFFFF#16].all
      (fun w => decide (decodeWord w = .error (.unrecognized w))) = true := by decide

theorem witness_EncodingADecodedWordGivesItBack : decodeWord 0x0FEE#16 = .ok (.ret 0xF#4) ∧
    decodeWord 0xDFFF#16 = .ok (.drw 0xF#4 0xF#4 0xF#4) := by decide

theorem witness_AssembledLinesDecodeToWhatTheyStandFor :
    (AsmLine.mk .DRW [.v 15, .v 0, .num 15]).toInstr = some (.drw 0xF#4 0x0#4 0xF#4) ∧
    (AsmLine.mk .JP [.v 0, .num 0xFFF]).toInstr = some (.jpV0 0xFFF#12) := by decide

/-- A word for every clause: every mask and key of the statement has a word. -/
theorem witness_NameLookupGivesTheMnemonic :
    tier1.all (fun e => decide ((e.1 ||| 0x0F00#16) &&& 0xF0FF#16 = e.1)) = true ∧
    tier2.all (fun e => decide ((e.1 ||| 0x0FF0#16) &&& 0xF00F#16 = e.1)) = true ∧
    tier3.all (fun e => decide ((e.1 ||| 0x0FFF#16) &&& 0xF000#16 = e.1)) = true ∧
    decodeWord 0x5551#16 = .error (.unrecognized 0x5551#16) := by decide

/-- A word that runs at the last address that can be fetched from, and one that raises a fault. -/
theorem witness_StepRunsTheDecodedInstruction :
    let s := ({ State.reset with pc := 0x0FFE#16 } : State).withFetchWord 16 0x6012
    let f := State.reset.withFetchWord 16 0x00EE
    (CanFetch s ∧ decodeWord (wordAtPc s) = .ok (.ldImm 0x0#4 0x12#8) ∧
      (nextOf (exec (.ldImm 0x0#4 0x12#8) s.advance.clearReport)).map (·.fault.code) = some .noFault) ∧
    (CanFetch f ∧ decodeWord (wordAtPc f) = .ok (.ret 0x0#4) ∧
      (nextOf (exec (.ret 0x0#4) f.advance.clearReport)).map (·.fault.code) = some .stackUnderflow) := by
  simp only [CanFetch]; decide

theorem witness_UnrecognizedWordIsReportedAndPassedOver :
    CanFetch State.reset ∧ decodeWord (wordAtPc State.reset) = .error (.unrecognized (wordAtPc State.reset)) := by
  simp only [CanFetch]; decide

theorem witness_HaltedUnitStaysUntilReset : stopped.fault.code ≠ .noFault ∧
    (nextOf (act .reset stopped)).map (·.fault.code) = some .noFault ∧
    (nextOf (act (.romLoad (some [0x12#8, 0x00#8])) stopped)).map (·.fault.code) = some .noFault := by decide

theorem witness_FetchAboveMemoryFaults :
    ∃ s : State, s.fault.code = .noFault ∧ s.pc = 0x0FFF#16 ∧ 0x0FFE < s.pc.toNat :=
  ⟨{ State.reset with pc := 0x0FFF#16 }, rfl, rfl, by decide⟩

/-- Each cause, raised by a step from a state with no fault latched; the causes of a fetch fault and of a data fault at
the first value of their range. -/
theorem witness_FaultsAreRaisedExactlyOnTheirCauses :
    seen (deep State.reset 16) 0x2FFF (·.fault.code) = some .stackOverflow ∧
    seen State.reset 0x0FEE (·.fault.code) = some .stackUnderflow ∧
    seen (regs [(0x3#4, 0x10#8)]) 0xE39E (·.fault.code) = some .keyIndexOutOfRange ∧
    seen (State.reset.setIndex 0x0FFF#16) 0xF165 (·.fault.code) = some .dataOutOfRange ∧
    (nextOf (step { State.reset with pc := 0x0FFF#16 })).map (·.fault.code) = some .fetchOutOfRange := by decide

/-- The last value that raises no fault, cause by cause. -/
theorem witness_FaultsAreRaisedExactlyOnTheirCauses_not :
    seen (deep State.reset 15) 0x2FFF (·.fault.code) = some .noFault ∧
    seen (deep State.reset 1) 0x0FEE (·.fault.code) = some .noFault ∧
    seen (regs [(0x3#4, 0x0F#8)]) 0xE39E (·.fault.code) = some .noFault ∧
    seen (State.reset.setIndex 0x0FFE#16) 0xF165 (·.fault.code) = some .noFault ∧
    seen { State.reset with pc := 0x0FFE#16 } 0x6012 (·.fault.code) = some .noFault := by decide

/-- A fault that an instruction raises, and a fetch fault. -/
theorem witness_FaultsArePrecise : State.reset.fault.code = .noFault ∧
    seen State.reset 0x0FEE (fun t => decide (t.fault.code ≠ .noFault ∧ t.fault.code ≠ .fetchOutOfRange)) = some true ∧
    (nextOf (step { State.reset with pc := 0x0FFF#16 })).map (fun t => t.fault.code) = some .fetchOutOfRange := by
  decide

/-- A cycle of each kind that the statement names: another instruction, `Fx15`, `Fx18`, and one that faults. -/
theorem witness_EveryCompletedCycleCountsTheTimersDown :
    seen State.reset 0x6012 (·.fault.code) = some .noFault ∧ seen State.reset 0xFF15 (·.fault.code) = some .noFault ∧
    seen State.reset 0xFF18 (·.fault.code) = some .noFault ∧
    seen State.reset 0x00EE (·.fault.code) = some .stackUnderflow := by decide

theorem witness_OnlyTheListedInstructionsWriteRegisters :
    seen State.reset 0x6F01 (fun t => decide (t.reg 0xF#4 ≠ State.reset.reg 0xF#4)) = some true := by decide

/-- A step that changes each field of the statement. -/
theorem witness_StateIsWrittenOnlyByItsWriters :
    seen State.reset 0xA300 (fun t => decide (t.index ≠ State.reset.index)) = some true ∧
    seen State.reset 0x2300 (fun t => decide (t.stack ≠ State.reset.stack ∧ t.sp ≠ State.reset.sp)) = some true ∧
    seen (State.reset.setIndex 0x0050#16) 0xD005 (fun t => decide (t.disp ≠ State.reset.disp)) = some true ∧
    seen (State.reset.setIndex 0x0050#16) 0xF033
      (fun t => decide (t.mem ≠ (State.reset.withFetchWord 16 0xF033).mem)) = some true := by decide

/-- A jump to itself at the last address that can be fetched from, and a key wait with no key held. -/
theorem witness_SpinningChangesOnlyTimersAndReport :
    let j := ({ State.reset with pc := 0x0FFE#16 } : State).withFetchWord 16 0x1FFE
    let k := State.reset.withFetchWord 16 0xFF0A
    (CanFetch j ∧ decodeWord (wordAtPc j) = .ok (.jp 0xFFE#12) ∧ (0xFFE#12).toNat = j.pc.toNat) ∧
    (CanFetch k ∧ decodeWord (wordAtPc k) = .ok (.ldVxK 0xF#4) ∧ k.key = 0#16) := by
  simp only [CanFetch]; decide

/-- Power-on with a word placed meets the invariant, and so do, part by part, the halted state and the reporting state
that a step from there leaves. -/
theorem witness_EveryStepKeepsTheInvariant :
    (State.reset.withFetchWord 16 0x0FEE).Inv ∧ seen State.reset 0x0FEE (·.halted) = some true ∧
    seen State.reset 0x0FEE (fun t => decide t.RecordOk) = some true ∧
    (nextOf (step State.reset)).map (·.report.unrecognized) = some true ∧
    (nextOf (step State.reset)).map (fun t => decide t.ReportOk) = some true :=
  ⟨⟨by decide, by decide, by decide, by decide⟩, by decide, by decide, by decide, by decide⟩

/-- States that each part of the invariant rules out. -/
theorem test_invariant_rules_states_out : ¬ ({ State.reset with mem := [(0x300, 0#8)] } : State).MemoryOk ∧
    ¬ ({ stopped with pc := 0x0202#16 } : State).RecordOk ∧
    ¬ ({ State.reset with report := ⟨false, 1#16, 0#16⟩ } : State).ReportOk ∧
    ¬ ({ State.reset with pc := 0x10FF#16 } : State).PcBounded :=
  ⟨by decide, by decide, by decide, by decide⟩

theorem witness_EveryReachableStateMeetsTheInvariant (font : Vector Byte 80) :
    Reachable (State.powerOn font) ∧ Reachable ((State.powerOn font).writeKeypad 0xFFFF#16) :=
  ⟨.powerOn font, .act (.keypad 0xFFFF#16) (.powerOn font) rfl⟩

/-- Two ways of writing the same bytes give one memory; an entry that says what an unlisted address reads as is not
canonical. -/
theorem witness_CanonicalMemoriesThatReadAlikeAreEqual :
    let m := Memory.writeBytes [] 0x300 [1#8, 2#8]
    let n := Memory.write (Memory.write (Memory.write [] 0x301 2#8) 0x300 7#8) 0x300 1#8
    m.wf = true ∧ n.wf = true ∧ m = n ∧ Memory.wf [(0x300, 0#8)] = false := by decide

/-- The addresses beside the font area, and the last one of memory. -/
theorem witness_PowerOnGivesTheListedValues : (0x04F < 4096 ∧ 0x04F < 0x050) ∧ (0x0A0 < 4096 ∧ 0x09F < 0x0A0) ∧
    (0xFFF < 4096 ∧ 0x09F < 0xFFF) := by decide

theorem witness_PowerOnWithTheDefaultFontIsReset : ∃ font : Vector Byte 80, font.toList = defaultFont :=
  ⟨⟨defaultFont.toArray, by decide⟩, rfl⟩

/-- There are images of every length: the largest that loads, and the smallest that does not. -/
theorem witness_RomLoadResetsAndCopies (n : Nat) : ∃ bytes : List Byte, bytes.length = n :=
  ⟨List.replicate n 0xAA#8, List.length_replicate⟩

theorem witness_RetPopsThePc : State.reset.sp.val = 0 ∧ (deep State.reset 1).sp.val = (0 : Fin 16).val + 1 ∧
    (deep State.reset 16).sp.val = (15 : Fin 16).val + 1 := by decide

theorem witness_CallPushesTheReturnAddress : (deep State.reset 16).sp.val = 16 ∧
    State.reset.sp.val = (0 : Fin 16).val ∧ (deep State.reset 15).sp.val = (15 : Fin 16).val := by decide

theorem witness_ReturnGoesBackBehindTheCall : (deep State.reset 15).sp.val < 16 ∧
    seen (deep State.reset 15) 0x2300 (fun t => decide (t.sp.val = 16)) = some true := by decide

theorem witness_SkipsOnValuesMoveOnlyThePc : 0x5AB1#16 &&& 0xF000#16 = 0x5000#16 ∧
    (0x5AB1#16).extractLsb' 0 4 ≠ 0x0#4 ∧ 0x9ABF#16 &&& 0xF000#16 = 0x9000#16 ∧
    (0x9ABF#16).extractLsb' 0 4 ≠ 0x0#4 := by decide

theorem witness_SkipsOnKeysReadTheLatch : 0xF < ((regs [(0x3#4, 0x10#8)]).reg 0x3#4).toNat ∧
    ((regs [(0x3#4, 0x0F#8)]).reg 0x3#4).toNat = (15 : Fin 16).val := by decide

theorem witness_BcdStoresThreeDigits : 0xFFF < (State.reset.setIndex 0x0FFE#16).index.toNat + 2 ∧
    (State.reset.setIndex 0x0FFD#16).index.toNat + 2 ≤ 0xFFF := by decide

/-- For `Fx55` and for `Fx65`: the last `I` that all 16 registers fit at, and the first that they do not. -/
theorem witness_StoreAndLoadOfRegisters : 0xFFF < (State.reset.setIndex 0x0FF1#16).index.toNat + (0xF#4).toNat ∧
    (State.reset.setIndex 0x0FF0#16).index.toNat + (0xF#4).toNat ≤ 0xFFF := by decide

theorem witness_LoadAfterStoreRestoresTheRegisters :
    (State.reset.setIndex 0x0FF0#16).index.toNat + (0xF#4).toNat ≤ 0xFFF ∧
    (nextOf (exec (.ldMemVx 0xF#4) (State.reset.setIndex 0x0FF0#16))).isSome = true := by decide

theorem witness_TimerAccessMovesTheTimers :
    CanFetch State.reset ∧ wordAtPc (State.reset.withFetchWord 16 0xFF07) = 0xF#4 ++ 0xF#4 ++ 0x07#8 ∧
    wordAtPc (State.reset.withFetchWord 16 0xFF15) = 0xF#4 ++ 0xF#4 ++ 0x15#8 ∧
    wordAtPc (State.reset.withFetchWord 16 0xFF18) = 0xF#4 ++ 0xF#4 ++ 0x18#8 ∧
    (State.reset.withFetchWord 16 0xFF07).fault.code = .noFault ∧
    (State.reset.withFetchWord 16 0xFF07).pc.toNat ≤ 0x0FFE := by
  simp only [CanFetch]; decide

theorem witness_KeyWaitTakesTheHighestHeldKey : (∀ k : Fin 16, State.reset.key[k] = false) ∧
    (State.reset.writeKeypad 0x8001#16).key[(15 : Fin 16)] = true ∧
    (State.reset.writeKeypad 0x0001#16).key[(0 : Fin 16)] = true ∧
    (∀ j : Fin 16, 0 < j → (State.reset.writeKeypad 0x0001#16).key[j] = false) := by decide

/-- The last `I` that a sprite's rows fit at, the first that they do not, a sprite of no rows anywhere, and, of a sprite
that fits, a pixel that it covers and one that it does not. -/
theorem witness_DrawTogglesThePixelsUnderTheSprite :
    (0 < (0x3#4).toNat ∧ 0xFFF < (State.reset.setIndex 0x0FFE#16).index.toNat + (0x3#4).toNat - 1) ∧
    (State.reset.setIndex 0x0FFD#16).index.toNat + (0x3#4).toNat - 1 ≤ 0xFFF ∧ (0x0#4).toNat = 0 ∧
    Covers corner 0x1#4 0x2#4 0x1#4 63 31 ∧ ¬ Covers corner 0x1#4 0x2#4 0x1#4 61 31 ∧
    (lit corner [(63, 31)]).disp.pixel 63 31 = true ∧ corner.disp.pixel 63 31 = false := by
  simp only [Covers]; decide

/-- The first draw of `corner` lights pixels, so the second sets `VF`. -/
theorem witness_DrawingTwiceRestoresTheDisplay : (0x1#4 ≠ 0xF#4 ∧ 0x2#4 ≠ 0xF#4) ∧
    corner.index.toNat + (0x1#4).toNat - 1 ≤ 0xFFF ∧
    (nextOf (exec (.drw 0x1#4 0x2#4 0x1#4) corner)).map (·.disp.pixel 63 31) = some true := by decide

end Sys2Proof.Tests
end

section
/-! SUPPORT. The display export (spec/10_state.md R26, decision D26): how long it is, and which pixel each of its words
shows. -/

namespace Sys2Proof.Machine

open Sys2Proof

@[simp] theorem State.length_dispOut (s : State) : s.dispOut.length = 2048 := by
  rw [State.dispOut, List.length_map, List.length_range]

/-- Word `k` of the export shows the pixel in column `k % 64` of row `k / 64`. -/
theorem State.getElem?_dispOut (s : State) (k : Nat) (hk : k < 2048) :
    s.dispOut[k]? = some (pixelWord (s.disp.pixel (k % 64) (k / 64))) := by
  rw [State.dispOut, List.getElem?_map, List.getElem?_range hk, Option.map_some]

/-- Read row by row: the word of pixel (`px`, `py`) is word `py * 64 + px` (R26). -/
theorem State.getElem?_dispOut_pixel (s : State) (px py : Nat) (hpx : px < 64) (hpy : py < 32) :
    s.dispOut[py * 64 + px]? = some (pixelWord (s.disp.pixel px py)) := by
  have hcol : (py * 64 + px) % 64 = px := Nat.mul_add_mod_of_lt hpx
  have hrow : (py * 64 + px) / 64 = py := by omega
  rw [s.getElem?_dispOut _ (by omega), hcol, hrow]

end Sys2Proof.Machine

namespace Sys2Proof.Claims

open Sys2Proof Sys2Proof.Machine

/-- Settles O26: a pixel's column and row are the remainder and the quotient of its word's index by 64. -/
theorem displayExportIsRowMajor : Obligations.DisplayExportIsRowMajor :=
  fun s => ⟨s.length_dispOut, s.getElem?_dispOut_pixel⟩

end Sys2Proof.Claims
end

section
/-! SUPPORT. The cycle of spec/40_cycle.md R62, one equation for each way through it, in the terms of the statements
(`CanFetch`, `wordAtPc`); and what the host's moves do to a latched fault (R112). -/

namespace Sys2Proof.Machine

open Sys2Proof Sys2Proof.Claims

theorem State.halted_iff (s : State) : s.halted = true ↔ s.fault.code ≠ .noFault :=
  s.fault.code.isFault_iff

theorem State.halted_eq_false_iff (s : State) : s.halted = false ↔ s.fault.code = .noFault :=
  s.fault.code.not_isFault_iff

/-! ## The end of a cycle -/

/-- An instruction that leaves no fault is followed by the countdown (R62, R117). -/
theorem finishCycle_next_of_noFault {t : State} (h : t.fault.code = .noFault) :
    finishCycle (.next t) = .next t.countdown := by
  rw [finishCycle, t.halted_eq_false_iff.mpr h, if_neg Bool.false_ne_true]

/-- A fault ends the cycle before the countdown (R108). -/
theorem finishCycle_next_of_fault {t : State} (h : t.fault.code ≠ .noFault) : finishCycle (.next t) = .next t := by
  rw [finishCycle, if_pos (t.halted_iff.mpr h)]

/-! ## The four ways through a cycle -/

section

variable {s : State}

/-- R63. -/
theorem step_of_fault (h : s.fault.code ≠ .noFault) : step s = .next s := by
  rw [step, cycle, if_pos (s.halted_iff.mpr h)]

/-- R64: the fetch check fails. -/
theorem step_of_pc_gt (h : s.fault.code = .noFault) (hpc : 0x0FFE < s.pc.toNat) :
    step s = .next (s.takeFault .fetchOutOfRange (BitVec.ofNat 17 s.pc.toNat) s.pc 0#16) := by
  rw [step, cycle, s.halted_eq_false_iff.mpr h, if_neg Bool.false_ne_true, if_pos hpc]

/-- The word of a statement is the word that the cycle fetches (R37, R65). -/
theorem wordAtPc_eq_fetch16 (s : State) : wordAtPc s = s.mem.fetch16 s.pc.toNat := rfl

/-- R66: the word at `pc` is an instruction. -/
theorem step_of_decodes {i : Instr} (h : CanFetch s) (hi : decodeWord (wordAtPc s) = .ok i) :
    step s = finishCycle (exec i s.advance.clearReport) := by
  obtain ⟨hfault, hpc⟩ := h
  rw [wordAtPc_eq_fetch16] at hi
  rw [step, cycle, s.halted_eq_false_iff.mpr hfault, if_neg Bool.false_ne_true, if_neg (Nat.not_lt.mpr hpc), hi]

/-- R67: the word at `pc` is unrecognized. -/
theorem step_of_unrecognized {e : DecodeError} (h : CanFetch s) (he : decodeWord (wordAtPc s) = .error e) :
    step s = .next (s.advance.reportUnrecognized (wordAtPc s) s.pc).countdown := by
  obtain ⟨hfault, hpc⟩ := h
  rw [wordAtPc_eq_fetch16] at he ⊢
  rw [step, cycle, s.halted_eq_false_iff.mpr hfault, if_neg Bool.false_ne_true, if_neg (Nat.not_lt.mpr hpc), he]

end

/-! ## The host's moves on a halted unit -/

/-- A ROM load, whatever becomes of its bytes, begins with `reset()` (R125). -/
theorem State.pc_romLoad (s : State) (source : Option (List Byte)) : (s.romLoad source).2.pc = 0x200#16 := by
  cases source with
  | none => rfl
  | some bytes =>
    rw [State.romLoad]
    split <;> rfl

/-- R112: a step and a keypad write leave a latched fault as it is. -/
theorem act_keeps_fault {a : HostAction} {s t : State} (h : s.fault.code ≠ .noFault)
    (hreset : a ≠ .reset) (hload : ∀ source, a ≠ .romLoad source) (did : act a s = .next t) : t.fault = s.fault := by
  cases a with
  | step =>
    rw [act, step_of_fault h] at did
    cases did
    rfl
  | keypad keys =>
    cases did
    rfl
  | reset => exact absurd rfl hreset
  | romLoad source => exact absurd rfl (hload source)

/-- R124, R125: `reset()` and a ROM load put `pc` at 0x200. -/
theorem act_pc_of_reset_or_romLoad {a : HostAction} {s t : State} (ha : a = .reset ∨ ∃ source, a = .romLoad source)
    (did : act a s = .next t) : t.pc = 0x200#16 := by
  rcases ha with rfl | ⟨source, rfl⟩
  · cases did
    rfl
  · cases did
    exact s.pc_romLoad source

end Sys2Proof.Machine

namespace Sys2Proof.Claims

open Sys2Proof Sys2Proof.Machine

/-- Settles O9: every host action but `reset()` and a ROM load keeps the fault that is latched. -/
theorem haltedUnitStaysUntilReset : Obligations.HaltedUnitStaysUntilReset := by
  intro s hs
  refine ⟨step_of_fault hs, fun a t did ht => ?_⟩
  have ha : a = .reset ∨ ∃ source, a = .romLoad source := by
    by_contra hne
    obtain ⟨hreset, hload⟩ := not_or.mp hne
    have hkept : t.fault = s.fault := act_keeps_fault hs hreset (not_exists.mp hload) did
    exact hs (hkept ▸ ht)
  exact ⟨ha, act_pc_of_reset_or_romLoad ha did⟩

/-- Settles O7: the two ends of a cycle whose instruction has run. -/
theorem stepRunsTheDecodedInstruction : Obligations.StepRunsTheDecodedInstruction := by
  intro s u i hs hi hu
  have hstep : step s = finishCycle (.next u) := (step_of_decodes hs hi).trans (congrArg finishCycle hu)
  constructor
  · intro hok
    rw [hstep, finishCycle_next_of_noFault hok]
    rfl
  · intro hfault
    rw [hstep, finishCycle_next_of_fault hfault]

/-- Settles O8: the state that `step_of_unrecognized` gives, field by field. -/
theorem unrecognizedWordIsReportedAndPassedOver : Obligations.UnrecognizedWordIsReportedAndPassedOver :=
  fun _ hs he => step_of_unrecognized hs he

/-- Settles O10: fault entry with `pc` as its own `fault_pc`, and as `fault_info` at 17 bits. -/
theorem fetchAboveMemoryFaults : Obligations.FetchAboveMemoryFaults := by
  intro s hs hpc
  rw [step_of_pc_gt hs hpc, BitVec.ofNat_toNat]
  rfl

end Sys2Proof.Claims
end

section
/-! SUPPORT. The decoder (spec/30_encoding.md R50, R51): a word with the fixed bits of a row of a key table decodes to
that row's instruction, one lemma per tier. -/

namespace Sys2Proof

open Sys2Proof.Claims

/-- A table has no entry for a masked word, if the bits that a coarser mask keeps of the word tell it from every key. -/
theorem lookupKey_eq_none {table : List (Word × Tag)} {mask coarse key w : Word} (hmask : mask &&& coarse = coarse)
    (hkeys : ∀ row ∈ table, row.1 &&& coarse ≠ key) (hw : w &&& coarse = key) : lookupKey table (w &&& mask) = none := by
  induction table with
  | nil => rfl
  | cons row rest ih =>
    obtain ⟨hrow, hrest⟩ := List.forall_mem_cons.mp hkeys
    have hne : w &&& mask ≠ row.1 := by
      intro heq
      rw [← heq, BitVec.and_assoc, hmask] at hrow
      exact hrow hw
    rw [lookupKey, if_neg hne, ih hrest]

theorem decodeWord_of_dispatch {w : Word} {tag : Tag} (h : dispatch w = some tag) :
    decodeWord w = .ok (buildInstr tag w) := by
  rw [decodeWord, h]

/-- R50: tier 1 comes first. -/
theorem encoded_of_mem_tier1 {key : Word} {tag : Tag} (h : (key, tag) ∈ tier1) :
    Encoded tier1Mask key (buildInstr tag) := by
  intro w hw
  have hfound : ∀ row ∈ tier1, lookupKey tier1 row.1 = some row.2 := by decide
  apply decodeWord_of_dispatch
  rw [dispatch, hw, hfound _ h]

/-- R50: no word of tier 2 is one of tier 1. -/
theorem encoded_of_mem_tier2 {key : Word} {tag : Tag} (h : (key, tag) ∈ tier2) :
    Encoded tier2Mask key (buildInstr tag) := by
  intro w hw
  have hfound : ∀ row ∈ tier2, lookupKey tier2 row.1 = some row.2 := by decide
  have hapart : ∀ row ∈ tier2, ∀ row₁ ∈ tier1, row₁.1 &&& tier2Mask ≠ row.1 := by decide
  apply decodeWord_of_dispatch
  rw [dispatch, lookupKey_eq_none rfl (hapart _ h) hw, hw, hfound _ h]

/-- R50: no word of tier 3 is one of tier 1 or of tier 2, the top nibbles of the three tiers being different. -/
theorem encoded_of_mem_tier3 {key : Word} {tag : Tag} (h : (key, tag) ∈ tier3) :
    Encoded tier3Mask key (buildInstr tag) := by
  intro w hw
  have hfound : ∀ row ∈ tier3, lookupKey tier3 row.1 = some row.2 := by decide
  have hapart : ∀ row ∈ tier3, (∀ row₁ ∈ tier1, row₁.1 &&& tier3Mask ≠ row.1) ∧
      ∀ row₂ ∈ tier2, row₂.1 &&& tier3Mask ≠ row.1 := by decide
  obtain ⟨h₁, h₂⟩ := hapart _ h
  apply decodeWord_of_dispatch
  rw [dispatch, lookupKey_eq_none rfl h₁ hw, lookupKey_eq_none rfl h₂ hw, hw, hfound _ h]

end Sys2Proof
end

section
/-! SUPPORT. Control transfer (spec/41_control_flow.md): the two ways that `00EE` and `2nnn` end, and what a push and
a pop do for a stack pointer that is given. -/

namespace Sys2Proof.Machine

open Sys2Proof Sys2Proof.Claims

/-- Fault entry (R110) in the terms of the statements. -/
theorem raise_eq_afterFault (code : FaultCode) (info : Nat) (i : Instr) (s : State) :
    raise code info i s = .next (afterFault s code info (encode i)) := rfl

section

variable {s : State} {k : Fin 16}

/-! ## The stack (R21, R22) -/

theorem State.pop_of_sp_eq_succ (h : s.sp.val = k.val + 1) :
    s.pop = { s with sp := k.castSucc, pc := s.stack[k] } := by
  have hsp : s.pop.sp = k.castSucc := Fin.ext (Nat.sub_eq_of_eq_add h)
  have hpc : s.pop.pc = s.stack[k] := by
    simp only [State.pop_pc, State.topOfStack, h, Nat.add_sub_cancel, Fin.getElem_fin]
  rw [← hsp, ← hpc]
  rfl

theorem State.push_of_sp_eq (a : Word) (h : s.sp.val = k.val) :
    s.push a = { s with stack := s.stack.set k.val a, sp := k.succ } := by
  obtain ⟨hstack, hsp⟩ := s.push_of_lt a (h ▸ k.isLt)
  have hstack : (s.push a).stack = s.stack.set k.val a := by simp only [hstack, h]
  have hsp : (s.push a).sp = k.succ := Fin.ext (by rw [hsp, h, Fin.val_succ])
  rw [← hsp, ← hstack]
  rfl

/-! ## `00EE` (R70) -/

theorem exec_ret_of_sp_eq_zero (x : Nibble) (h : s.sp.val = 0) :
    exec (.ret x) s = raise .stackUnderflow 0 (.ret x) s := if_pos h

theorem exec_ret_of_sp_ne_zero (x : Nibble) (h : s.sp.val ≠ 0) : exec (.ret x) s = .next s.pop := if_neg h

/-! ## `2nnn` (R72) -/

theorem exec_call_of_sp_eq_16 (nnn : Addr) (h : s.sp.val = 16) :
    exec (.call nnn) s = raise .stackOverflow 16 (.call nnn) s := if_pos h

theorem exec_call_of_sp_ne_16 (nnn : Addr) (h : s.sp.val ≠ 16) :
    exec (.call nnn) s = .next ((s.push s.pc).setPc (addrWord nnn)) := if_neg h

end

end Sys2Proof.Machine

namespace Sys2Proof.Claims

open Sys2Proof Sys2Proof.Machine

/-- Settles O28: `sp = 0` is the underflow, and a stack pointer `k + 1` pops entry `k`. -/
theorem retPopsThePc : Obligations.RetPopsThePc := by
  refine ⟨encoded_of_mem_tier1 (tag := .RET) (by decide), fun s x => ⟨fun hsp => ?_, fun k hsp => ?_⟩⟩
  · rw [exec_ret_of_sp_eq_zero x hsp, raise_eq_afterFault]
    rfl
  · rw [exec_ret_of_sp_ne_zero x (by omega), State.pop_of_sp_eq_succ hsp]

/-- Settles O29: each jump is one write to `pc`, and the sum of `Bnnn` does not wrap. -/
theorem jumpsWriteThePc : Obligations.JumpsWriteThePc := by
  refine ⟨encoded_of_mem_tier3 (tag := .JP) (by decide), encoded_of_mem_tier3 (tag := .JP_V0) (by decide),
    fun s nnn => ⟨rfl, s.setPc (offsetTarget (s.reg 0x0#4) nnn), rfl, ?_, rfl⟩⟩
  rw [State.setPc_pc, toNat_offsetTarget]

/-- Settles O30: `sp = 16` is the overflow, and a stack pointer `k` below it pushes to entry `k`. -/
theorem callPushesTheReturnAddress : Obligations.CallPushesTheReturnAddress := by
  refine ⟨encoded_of_mem_tier3 (tag := .CALL) (by decide), fun s nnn => ⟨fun hsp => ?_, fun k hsp => ?_⟩⟩
  · rw [exec_call_of_sp_eq_16 nnn hsp, raise_eq_afterFault]
    rfl
  · rw [exec_call_of_sp_ne_16 nnn (by omega), State.push_of_sp_eq s.pc hsp]
    rfl

end Sys2Proof.Claims
end

section
/-! SUPPORT. Conditional skips (spec/42_conditional_skips.md): a skip in the terms of the statements, the two ways that
`Ex9E` and `ExA1` end, and the words with a top nibble of tier 2 that no row of the table lists. -/

namespace Sys2Proof

theorem decodeWord_of_dispatch_eq_none {w : Word} (h : dispatch w = none) :
    decodeWord w = .error (.unrecognized w) := by
  rw [decodeWord, h]

theorem fieldN_and_tier2Mask (w : Word) : fieldN (w &&& tier2Mask) = fieldN w := by
  have hmask : tier2Mask.extractLsb' 0 4 = BitVec.allOnes 4 := by decide
  rw [fieldN, BitVec.extractLsb'_and, hmask, BitVec.and_allOnes, fieldN]

theorem and_tier2Mask_and_tier3Mask (w : Word) : w &&& tier2Mask &&& tier3Mask = w &&& tier3Mask :=
  BitVec.and_assoc w tier2Mask tier3Mask

/-- R50, R54: a word matches no tier, if only rows of tier 2 have its top nibble and each of them has another low
nibble. -/
theorem dispatch_eq_none_of_fieldN_ne {w : Word} (h₁ : ∀ row ∈ tier1, row.1 &&& tier3Mask ≠ w &&& tier3Mask)
    (h₂ : ∀ row ∈ tier2, row.1 &&& tier3Mask = w &&& tier3Mask → fieldN row.1 ≠ fieldN w)
    (h₃ : ∀ row ∈ tier3, row.1 &&& tier3Mask ≠ w &&& tier3Mask) : dispatch w = none := by
  have hapart : ∀ row ∈ tier2, row.1 &&& tier2Mask ≠ w &&& tier2Mask := by
    intro row hrow heq
    have htop : row.1 &&& tier3Mask = w &&& tier3Mask := by
      rw [← and_tier2Mask_and_tier3Mask, heq, and_tier2Mask_and_tier3Mask]
    have hlow : fieldN row.1 = fieldN w := by
      rw [← fieldN_and_tier2Mask, heq, fieldN_and_tier2Mask]
    exact h₂ row hrow htop hlow
  rw [dispatch, lookupKey_eq_none rfl h₁ rfl, lookupKey_eq_none rfl hapart rfl, lookupKey_eq_none rfl h₃ rfl]

/-- R77, R78: the rows with top nibble 5 or 9 are rows of tier 2 and have low nibble 0. -/
theorem dispatch_eq_none_of_skipReg {w : Word} (hw : w &&& tier3Mask = 0x5000#16 ∨ w &&& tier3Mask = 0x9000#16)
    (hn : fieldN w ≠ 0x0#4) : dispatch w = none := by
  have h₁ : ∀ row ∈ tier1, ¬(row.1 &&& tier3Mask = 0x5000#16 ∨ row.1 &&& tier3Mask = 0x9000#16) := by decide
  have h₂ : ∀ row ∈ tier2, row.1 &&& tier3Mask = 0x5000#16 ∨ row.1 &&& tier3Mask = 0x9000#16 →
      fieldN row.1 = 0x0#4 := by decide
  have h₃ : ∀ row ∈ tier3, ¬(row.1 &&& tier3Mask = 0x5000#16 ∨ row.1 &&& tier3Mask = 0x9000#16) := by decide
  apply dispatch_eq_none_of_fieldN_ne
  · exact fun row hrow htop => h₁ row hrow (htop ▸ hw)
  · exact fun row hrow htop => h₂ row hrow (htop ▸ hw) ▸ hn.symm
  · exact fun row hrow htop => h₃ row hrow (htop ▸ hw)

end Sys2Proof

namespace Sys2Proof.Machine

open Sys2Proof Sys2Proof.Claims

section

variable {s : State} {x : Reg} {held : Bool} {i : Instr} {c : Bool} {p : Prop} [Decidable p]

/-- R74, for a condition that is tested as `p`. -/
theorem skipIf_of_iff (h : c = true ↔ p) :
    skipIf c s = .next { s with pc := if p then s.pc + 2#16 else s.pc } := by
  by_cases hp : p
  · rw [skipIf, if_pos (h.mpr hp), if_pos hp]
    rfl
  · rw [skipIf, if_neg (mt h.mp hp), if_neg hp]

/-- R74, for a condition that is tested as the opposite of `p`. -/
theorem skipIf_of_iff_not (h : c = true ↔ ¬p) :
    skipIf c s = .next { s with pc := if p then s.pc else s.pc + 2#16 } := by
  rw [skipIf_of_iff h, ite_not]

/-- R79, R80: the keypad has no key above 0xF. -/
theorem skipOnKey_of_gt (h : 0xF < (s.reg x).toNat) :
    skipOnKey x held i s = .next (afterFault s .keyIndexOutOfRange (s.reg x).toNat (encode i)) := by
  rw [skipOnKey, if_pos h, raise_eq_afterFault]

/-- R79, R80: the latch decides. -/
theorem skipOnKey_of_eq {k : Fin 16} (h : (s.reg x).toNat = k.val) :
    skipOnKey x held i s = skipIf (s.key[k] == held) s := by
  rw [skipOnKey, h, if_neg (by omega)]
  rfl

end

end Sys2Proof.Machine

namespace Sys2Proof.Claims

open Sys2Proof Sys2Proof.Machine

/-- Settles O32: each skip is one test, and no row of tier 2 lists a word `5xyN` or `9xyN` with N other than 0. -/
theorem skipsOnValuesMoveOnlyThePc : Obligations.SkipsOnValuesMoveOnlyThePc := by
  refine ⟨encoded_of_mem_tier3 (tag := .SE_IMM) (by decide), encoded_of_mem_tier3 (tag := .SNE_IMM) (by decide),
    encoded_of_mem_tier2 (tag := .SE_REG) (by decide), encoded_of_mem_tier2 (tag := .SNE_REG) (by decide),
    fun w hw hn => decodeWord_of_dispatch_eq_none (dispatch_eq_none_of_skipReg hw hn), fun s x y kk => ?_⟩
  exact ⟨skipIf_of_iff beq_iff_eq, skipIf_of_iff_not bne_iff_ne,
    skipIf_of_iff beq_iff_eq, skipIf_of_iff_not bne_iff_ne⟩

/-- Settles O33: an index above 0xF is the fault, and an index `k` tests bit `k` of the latch. -/
theorem skipsOnKeysReadTheLatch : Obligations.SkipsOnKeysReadTheLatch := by
  refine ⟨encoded_of_mem_tier1 (tag := .SKP) (by decide), encoded_of_mem_tier1 (tag := .SKNP) (by decide),
    fun s x => ⟨fun hx => ⟨skipOnKey_of_gt hx, skipOnKey_of_gt hx⟩, fun k hk => ⟨?_, ?_⟩⟩⟩
  · exact (skipOnKey_of_eq hk).trans (skipIf_of_iff beq_iff_eq)
  · have hunheld : (s.key[k] == false) = true ↔ ¬s.key[k] = true := by rw [beq_iff_eq, Bool.not_eq_true]
    exact (skipOnKey_of_eq hk).trans (skipIf_of_iff_not hunheld)

end Sys2Proof.Claims
end

section
/-! SUPPORT. Register loads and ALU operations (spec/43_register_alu.md): what one write of a register, and a write of
the flag before it, are in the terms of the statements, and the values of the flags. -/

namespace Sys2Proof.Machine

open Sys2Proof Sys2Proof.Claims

/-! ## The results (R81) and the flags (R16) as numbers -/

theorem addWrap_eq_ofNat_mod (a b : Byte) : addWrap a b = BitVec.ofNat 8 ((a.toNat + b.toNat) % 256) :=
  BitVec.eq_of_toNat_eq (by rw [toNat_addWrap, BitVec.toNat_ofNat, Nat.mod_mod])

theorem toNat_bit_decide (p : Prop) [Decidable p] : (bit (decide p)).toNat = if p then 1 else 0 := by
  simp only [toNat_bit, decide_eq_true_eq]

theorem toNat_carryFlag (a b : Byte) : (carryFlag a b).toNat = if a.toNat + b.toNat > 255 then 1 else 0 :=
  toNat_bit_decide _

theorem toNat_greaterFlag (a b : Byte) : (greaterFlag a b).toNat = if a.toNat > b.toNat then 1 else 0 :=
  toNat_bit_decide _

/-- A bit is a digit of the number. -/
theorem toNat_bit_getLsbD (a : Byte) (k : Nat) : (bit (a.getLsbD k)).toNat = a.toNat / 2 ^ k % 2 := by
  rw [toNat_bit, ← BitVec.testBit_toNat, Nat.testBit_eq_decide_div_mod_eq]
  simp only [decide_eq_true_eq]
  split <;> omega

theorem toNat_lowBitFlag (a : Byte) : (lowBitFlag a).toNat = a.toNat % 2 := by
  rw [lowBitFlag, toNat_bit_getLsbD, Nat.pow_zero, Nat.div_one]

/-- Bit 7 is the top bit: no bit above it is left to cut off. -/
theorem toNat_highBitFlag (a : Byte) : (highBitFlag a).toNat = a.toNat / 128 := by
  have htop : a.toNat / 128 < 2 := Nat.div_lt_of_lt_mul a.isLt
  rw [highBitFlag, toNat_bit_getLsbD]
  exact Nat.mod_eq_of_lt htop

/-! ## The two ways of writing (R14, R17) -/

theorem writesOnly_setReg (s : State) (x : Reg) (b : Byte) : WritesOnly s (s.setReg x b) x b :=
  ⟨s.reg_setReg_self x b, fun _ hz => s.reg_setReg_of_ne b hz, rfl⟩

/-- One write of a byte of which only the bits are told. -/
theorem setReg_writesOnly_bits (s : State) (x : Reg) {b : Byte} {bits : Fin 8 → Bool} (h : ∀ k : Fin 8, b[k] = bits k) :
    WritesOnly s (s.setReg x b) x ((s.setReg x b).reg x) ∧ ∀ k : Fin 8, ((s.setReg x b).reg x)[k] = bits k := by
  rw [s.reg_setReg_self x b]
  exact ⟨writesOnly_setReg s x b, h⟩

theorem writesFlagAnd_writeFlagged (s : State) (x : Reg) {flag result : Byte} {f r : Nat} (hflag : flag.toNat = f)
    (hresult : result.toNat = r) : WritesFlagAnd s (s.writeFlagged x flag result) x f r := by
  refine ⟨?_, fun hx => ?_, fun z hzx hzf => ?_, s.writeFlagged_frame x flag result⟩
  · rw [s.reg_writeFlagged, if_pos rfl, hresult]
  · rw [s.reg_writeFlagged, if_neg (Ne.symm hx), if_pos rfl, hflag]
  · rw [s.reg_writeFlagged, if_neg hzx, if_neg hzf]

end Sys2Proof.Machine

namespace Sys2Proof.Claims

open Sys2Proof Sys2Proof.Machine

/-- Settles O34: each of the three forms is one write, and the sum is cut to 8 bits. -/
theorem loadsAndImmediateAddWriteOnlyVx : Obligations.LoadsAndImmediateAddWriteOnlyVx := by
  refine ⟨encoded_of_mem_tier3 (tag := .LD_IMM) (by decide), encoded_of_mem_tier3 (tag := .ADD_IMM) (by decide),
    encoded_of_mem_tier2 (tag := .LD_REG) (by decide), fun s x y kk => ⟨⟨_, rfl, ?_⟩, ⟨_, rfl, ?_⟩, ⟨_, rfl, ?_⟩⟩⟩
  · exact writesOnly_setReg s x kk
  · rw [← addWrap_eq_ofNat_mod]
    exact writesOnly_setReg s x (addWrap (s.reg x) kk)
  · exact writesOnly_setReg s x (s.reg y)

/-- Settles O35: each of the three forms is one write, of a byte that the library tells bit by bit. -/
theorem logicWritesOnlyVx : Obligations.LogicWritesOnlyVx := by
  refine ⟨encoded_of_mem_tier2 (tag := .OR) (by decide), encoded_of_mem_tier2 (tag := .AND) (by decide),
    encoded_of_mem_tier2 (tag := .XOR) (by decide), fun s x y => ⟨⟨_, rfl, ?_⟩, ⟨_, rfl, ?_⟩, ⟨_, rfl, ?_⟩⟩⟩
  · exact setReg_writesOnly_bits s x fun k => BitVec.getElem_or k.isLt
  · exact setReg_writesOnly_bits s x fun k => BitVec.getElem_and k.isLt
  · exact setReg_writesOnly_bits s x fun k => BitVec.getElem_xor k.isLt

/-- Settles O36: the carry and the wrapped sum are both of the old registers. -/
theorem addWritesSumAndCarry : Obligations.AddWritesSumAndCarry :=
  ⟨encoded_of_mem_tier2 (tag := .ADD_REG) (by decide), fun s x _ =>
    ⟨_, rfl, writesFlagAnd_writeFlagged s x (toNat_carryFlag _ _) (toNat_addWrap _ _)⟩⟩

/-- Settles O37: `8xy7` is `8xy5` with its operands exchanged. -/
theorem subtractsWriteDifferenceAndStrictComparison : Obligations.SubtractsWriteDifferenceAndStrictComparison :=
  ⟨encoded_of_mem_tier2 (tag := .SUB) (by decide), encoded_of_mem_tier2 (tag := .SUBN) (by decide), fun s x _ =>
    ⟨⟨_, rfl, writesFlagAnd_writeFlagged s x (toNat_greaterFlag _ _) (toNat_subWrap _ _)⟩,
     ⟨_, rfl, writesFlagAnd_writeFlagged s x (toNat_greaterFlag _ _) (toNat_subWrap _ _)⟩⟩⟩

/-- Settles O38: neither meaning reads `y`; the bit shifted out is bit 0 or bit 7 of the old `Vx`. -/
theorem shiftsMoveVxByOne : Obligations.ShiftsMoveVxByOne :=
  ⟨encoded_of_mem_tier2 (tag := .SHR) (by decide), encoded_of_mem_tier2 (tag := .SHL) (by decide), fun s x _ =>
    ⟨⟨_, rfl, writesFlagAnd_writeFlagged s x (toNat_lowBitFlag _) (toNat_shiftRight1 _)⟩,
     ⟨_, rfl, writesFlagAnd_writeFlagged s x (toNat_highBitFlag _) (toNat_shiftLeft1 _)⟩⟩⟩

end Sys2Proof.Claims
end

section
/-! SUPPORT. Index register and memory transfers (spec/44_index_and_memory.md): the two ways a checked access ends in the
terms of the statements, what a block of bytes reads as after it is written, and the blocks that `Fx33`, `Fx55` and
`Fx65` move. -/

namespace Sys2Proof.Machine

open Sys2Proof Sys2Proof.Claims

/-! ## The range check (R41) -/

/-- An access with an address above 0xFFF, in the terms of the statements. -/
theorem withRange_eq_afterFault {b c : Nat} (i : Instr) (s t : State) (hc : 0 < c) (h : 0x1000 < b + c) :
    withRange b c i s t = .next (afterFault s .dataOutOfRange (max b 0x1000) (encode i)) := by
  rw [withRange_of_gt b c i s t hc h, raise_eq_afterFault]

/-! ## Blocks of memory (R36, R39) -/

theorem Memory.read_writeBytes_add (m : Memory) (a : Nat) {bs : List Byte} {k : Nat} (h : k < bs.length) :
    (m.writeBytes a bs).read (a + k) = bs[k] := by
  rw [Memory.read_writeBytes, if_pos (by omega), Nat.add_sub_cancel_left, List.getD_eq_getElem bs _ h]

/-- The same of bytes that are known as numbers. -/
theorem Memory.toNat_read_writeBytes_add (m : Memory) (a : Nat) {bs : List Byte} {ns : List Nat} {k : Nat}
    (hns : bs.map BitVec.toNat = ns) (h : k < ns.length) : ((m.writeBytes a bs).read (a + k)).toNat = ns[k] := by
  subst hns
  rw [List.getElem_map, m.read_writeBytes_add a (List.length_map BitVec.toNat ▸ h)]

theorem Memory.read_writeBytes_of_outside (m : Memory) {a b : Nat} {bs : List Byte} (h : b < a ∨ a + bs.length ≤ b) :
    (m.writeBytes a bs).read b = m.read b := by
  rw [Memory.read_writeBytes, if_neg (by omega)]

/-! ## The digits of `Fx33` (R97) -/

@[simp] theorem length_bcdDigits (v : Byte) : (bcdDigits v).length = 3 := rfl

/-- No digit of a byte is cut off. -/
theorem map_toNat_bcdDigits (v : Byte) :
    (bcdDigits v).map BitVec.toNat = [v.toNat / 100, v.toNat / 10 % 10, v.toNat % 10] := by
  have hv : v.toNat < 256 := v.isLt
  have hhundreds : v.toNat / 100 % 256 = v.toNat / 100 := by omega
  have htens : v.toNat / 10 % 10 % 256 = v.toNat / 10 % 10 := by omega
  have hones : v.toNat % 10 % 256 = v.toNat % 10 := by omega
  simp only [bcdDigits, List.map_cons, List.map_nil, BitVec.toNat_ofNat, Nat.reducePow, hhundreds, htens, hones]

/-- What the three bytes read as once they are written. -/
theorem toNat_read_writeBytes_bcdDigits (m : Memory) (a : Nat) (v : Byte) :
    ((m.writeBytes a (bcdDigits v)).read a).toNat = v.toNat / 100 ∧
      ((m.writeBytes a (bcdDigits v)).read (a + 1)).toNat = v.toNat / 10 % 10 ∧
      ((m.writeBytes a (bcdDigits v)).read (a + 2)).toNat = v.toNat % 10 :=
  have hread := fun k (h : k < 3) => m.toNat_read_writeBytes_add a (map_toNat_bcdDigits v) h
  ⟨hread 0 (by decide), hread 1 (by decide), hread 2 (by decide)⟩

/-! ## The registers of `Fx55` and `Fx65` (R98, R99) -/

theorem State.read_writeBytes_firstRegs (s : State) (m : Memory) (a : Nat) {x r : Reg} (h : r.toNat ≤ x.toNat) :
    (m.writeBytes a (s.firstRegs x)).read (a + r.toNat) = s.reg r := by
  have hr : r.toNat < (s.firstRegs x).length := by
    rw [s.length_firstRegs]
    exact Nat.lt_succ_of_le h
  rw [Memory.read_writeBytes_add m a hr, s.getElem_firstRegs, BitVec.ofNat_toNat, BitVec.setWidth_eq]

theorem State.reg_loadRegs_readBytes (s : State) (m : Memory) (a : Nat) (x r : Reg) :
    (s.loadRegs 0 (m.readBytes a (x.toNat + 1))).reg r =
      if r.toNat ≤ x.toNat then m.read (a + r.toNat) else s.reg r := by
  have hx : x.toNat < 16 := x.isLt
  rw [State.reg_loadRegs _ s 0 (by rw [Memory.length_readBytes]; omega), Memory.length_readBytes]
  by_cases h : r.toNat ≤ x.toNat
  · rw [if_pos (by omega), if_pos h, Nat.sub_zero, Memory.getD_readBytes m a _ _ (Nat.lt_succ_of_le h)]
  · rw [if_neg (by omega), if_neg h]

/-! ## How the three transfers end in memory (R97, R98, R99) -/

section

variable {s : State}

theorem exec_ldBVx_of_le (x : Reg) (h : s.index.toNat + 2 ≤ 0xFFF) :
    exec (.ldBVx x) s = .next (s.setMem (s.mem.writeBytes s.index.toNat (bcdDigits (s.reg x)))) :=
  withRange_of_le _ _ _ _ _ (.inr (by omega))

theorem exec_ldMemVx_of_le {x : Reg} (h : s.index.toNat + x.toNat ≤ 0xFFF) :
    exec (.ldMemVx x) s = .next (s.setMem (s.mem.writeBytes s.index.toNat (s.firstRegs x))) :=
  withRange_of_le _ _ _ _ _ (.inr (by omega))

theorem exec_ldVxMem_of_le {x : Reg} (h : s.index.toNat + x.toNat ≤ 0xFFF) :
    exec (.ldVxMem x) s = .next (s.loadRegs 0 (s.mem.readBytes s.index.toNat (x.toNat + 1))) :=
  withRange_of_le _ _ _ _ _ (.inr (by omega))

end

end Sys2Proof.Machine

namespace Sys2Proof.Claims

open Sys2Proof Sys2Proof.Machine

/-- Settles O40: each form is one write to `I`, of a number that only `Fx1E` cuts to 16 bits. -/
theorem indexLoadsWriteOnlyI : Obligations.IndexLoadsWriteOnlyI :=
  ⟨encoded_of_mem_tier3 (tag := .LD_I) (by decide), encoded_of_mem_tier1 (tag := .ADD_I_VX) (by decide),
    encoded_of_mem_tier1 (tag := .LD_F_VX) (by decide), fun s x nnn =>
      ⟨⟨s.setIndex (addrWord nnn), rfl, toNat_addrWord nnn, rfl⟩,
       ⟨s.setIndex (indexPlus s.index (s.reg x)), rfl, toNat_indexPlus s.index (s.reg x), rfl⟩,
       ⟨s.setIndex (glyphAddr (s.reg x)), rfl, toNat_glyphAddr (s.reg x), rfl⟩⟩⟩

/-- Settles O41: the range check covers three bytes, and they are the digits. -/
theorem bcdStoresThreeDigits : Obligations.BcdStoresThreeDigits := by
  refine ⟨encoded_of_mem_tier1 (tag := .LD_B_VX) (by decide), fun s x => ⟨fun hgt => ?_, fun hle => ?_⟩⟩
  · exact withRange_eq_afterFault (.ldBVx x) s _ (by decide) (by omega)
  · obtain ⟨hhundreds, htens, hones⟩ := toNat_read_writeBytes_bcdDigits s.mem s.index.toNat (s.reg x)
    refine ⟨_, exec_ldBVx_of_le x hle, hhundreds, htens, hones, fun a ha => ?_, rfl⟩
    exact Memory.read_writeBytes_of_outside s.mem (by rw [length_bcdDigits]; omega)

/-- Settles O42: the range check covers `x + 1` bytes, and byte `r` of them is `Vr`. -/
theorem storeWritesTheFirstRegisters : Obligations.StoreWritesTheFirstRegisters := by
  refine ⟨encoded_of_mem_tier1 (tag := .LD_MEM_VX) (by decide), fun s x => ⟨fun hgt => ?_, fun hle => ?_⟩⟩
  · exact withRange_eq_afterFault (.ldMemVx x) s _ (Nat.succ_pos _) (by omega)
  · refine ⟨_, exec_ldMemVx_of_le hle, fun r hr => s.read_writeBytes_firstRegs s.mem _ hr, fun a ha => ?_, rfl⟩
    exact Memory.read_writeBytes_of_outside s.mem (by rw [s.length_firstRegs]; omega)

/-- Settles O43: the range check covers `x + 1` bytes, and only the registers up to `x` take one. -/
theorem loadReadsTheFirstRegisters : Obligations.LoadReadsTheFirstRegisters := by
  refine ⟨encoded_of_mem_tier1 (tag := .LD_VX_MEM) (by decide), fun s x => ⟨fun hgt => ?_, fun hle => ?_⟩⟩
  · exact withRange_eq_afterFault (.ldVxMem x) s _ (Nat.succ_pos _) (by omega)
  · refine ⟨_, exec_ldVxMem_of_le hle, fun r hr => ?_, fun r hr => ?_, State.loadRegs_frame _ s 0⟩
    · rw [State.reg_loadRegs_readBytes, if_pos hr]
    · rw [State.reg_loadRegs_readBytes, if_neg (Nat.not_le.mpr hr)]

end Sys2Proof.Claims
end

section
/-! SUPPORT. Key wait (spec/45_timers_and_keywait.md R101): the keys of the latch in the terms of the statements, and the
two ways that `Fx0A` ends. -/

namespace Sys2Proof.Machine

open Sys2Proof

/-- Decision D21: the configured tie-break is the highest key. -/
theorem waitedKey_keywaitTiebreak (keys : BitVec 16) :
    waitedKey Config.keywaitTiebreak keys = highestHeld keys 16 := rfl

theorem highestHeld_eq_none_of_none_held {keys : BitVec 16} (h : ∀ k : Fin 16, keys[k] = false) :
    highestHeld keys 16 = none :=
  (highestHeld_eq_none keys 16).mpr fun k hk => (BitVec.getLsbD_eq_getElem hk).trans (h ⟨k, hk⟩)

theorem highestHeld_eq_some_of_held {keys : BitVec 16} {k : Fin 16} (hk : keys[k] = true)
    (habove : ∀ j : Fin 16, k < j → keys[j] = false) : highestHeld keys 16 = some k.val :=
  (highestHeld_eq_some keys 16 k).mpr
    ⟨k.isLt, (BitVec.getLsbD_eq_getElem k.isLt).trans hk,
      fun j hkj hj => (BitVec.getLsbD_eq_getElem hj).trans (habove ⟨j, hj⟩ hkj)⟩

section

variable {s : State} (x : Reg)

theorem exec_ldVxK_of_some {k : Nat} (h : highestHeld s.key 16 = some k) :
    exec (.ldVxK x) s = .next (s.setReg x (BitVec.ofNat 8 k)) := by
  change execLdVxK x s = _
  rw [execLdVxK, waitedKey_keywaitTiebreak, h]

theorem exec_ldVxK_of_none (h : highestHeld s.key 16 = none) : exec (.ldVxK x) s = .next s.rewind := by
  change execLdVxK x s = _
  rw [execLdVxK, waitedKey_keywaitTiebreak, h]

end

end Sys2Proof.Machine

namespace Sys2Proof.Claims

open Sys2Proof Sys2Proof.Machine

/-- Settles O46: the scan of the latch finds no key, or the one with every higher key up. -/
theorem keyWaitTakesTheHighestHeldKey : Obligations.KeyWaitTakesTheHighestHeldKey := by
  refine ⟨encoded_of_mem_tier1 (tag := .LD_VX_K) (by decide), fun s x => ⟨fun hnone => ?_, fun k hk habove => ?_⟩⟩
  · exact exec_ldVxK_of_none x (highestHeld_eq_none_of_none_held hnone)
  · exact ⟨_, exec_ldVxK_of_some x (highestHeld_eq_some_of_held hk habove), writesOnly_setReg s x _⟩

end Sys2Proof.Claims
end

section
/-! SUPPORT. Display (spec/46_display.md): the pixels and the collision flag of a sprite drawn with `Dxyn`, in the terms
of the statements. -/

namespace Sys2Proof.Machine

open Sys2Proof Sys2Proof.Claims

/-! ## `00E0` (R104) -/

theorem exec_cls (x : Nibble) (s : State) : exec (.cls x) s = .next (s.setDisp Display.clear) := rfl

section

variable {s : State} {x y : Reg} {n : Nibble} {px py : Nat}

/-! ## The sprite of `Dxyn` (R105) -/

/-- The rows that are read from `I` on, drawn at the origin that `Vx` and `Vy` give, are the statements' sprite. -/
theorem spriteBit_readBytes_iff_covers :
    spriteBit ((s.reg x).toNat % 64) ((s.reg y).toNat % 32) (s.mem.readBytes s.index.toNat n.toNat) px py = true ↔
      Covers s x y n px py := by
  simp only [spriteBit, Covers, Memory.length_readBytes, Bool.and_eq_true, decide_eq_true_eq]
  have hrow (hy : (s.reg y).toNat % 32 ≤ py ∧ py < (s.reg y).toNat % 32 + n.toNat) :
      (s.mem.readBytes s.index.toNat n.toNat).getD (py - (s.reg y).toNat % 32) 0#8 =
        s.mem.read (s.index.toNat + (py - (s.reg y).toNat % 32)) :=
    s.mem.getD_readBytes _ _ _ (by omega)
  constructor
  · rintro ⟨⟨⟨hylo, hyhi⟩, hxlo, hxhi⟩, hbit⟩
    rw [hrow ⟨hylo, hyhi⟩] at hbit
    exact ⟨hxlo, hxhi, hylo, hyhi, hbit⟩
  · rintro ⟨hxlo, hxhi, hylo, hyhi, hbit⟩
    rw [← hrow ⟨hylo, hyhi⟩] at hbit
    exact ⟨⟨⟨hylo, hyhi⟩, hxlo, hxhi⟩, hbit⟩

theorem State.pixel_drawn_of_covers (hpx : px < 64) (hpy : py < 32) (h : Covers s x y n px py) :
    (s.drawn x y n).1.pixel px py = !s.disp.pixel px py := by
  rw [State.drawn, pixel_drawRows _ _ _ _ _ _ hpx hpy, spriteBit_readBytes_iff_covers.mpr h, Bool.xor_true]

theorem State.pixel_drawn_of_not_covers (hpx : px < 64) (hpy : py < 32) (h : ¬Covers s x y n px py) :
    (s.drawn x y n).1.pixel px py = s.disp.pixel px py := by
  have hbit := Bool.eq_false_iff.mpr (mt spriteBit_readBytes_iff_covers.mp h)
  rw [State.drawn, pixel_drawRows _ _ _ _ _ _ hpx hpy, hbit, Bool.xor_false]

/-- The collision: the sprite has a set bit on a lit pixel of the grid. -/
theorem State.drawn_hit_iff :
    (s.drawn x y n).2 = true ↔ ∃ px py, px < 64 ∧ py < 32 ∧ Covers s x y n px py ∧ s.disp.pixel px py = true := by
  simp only [State.drawn, hit_drawRows, spriteBit_readBytes_iff_covers, Bool.false_eq_true, false_or]

theorem exec_drw_of_le (h : n.toNat = 0 ∨ s.index.toNat + n.toNat - 1 ≤ 0xFFF) :
    exec (.drw x y n) s =
      .next ((s.setReg vf (collisionFlag (s.drawn x y n).2)).setDisp (s.drawn x y n).1) :=
  withRange_of_le _ _ _ _ _ (by omega)

end

end Sys2Proof.Machine

namespace Sys2Proof.Claims

open Sys2Proof Sys2Proof.Machine

/-- Settles O47: the display is replaced by the one with no pixel lit. -/
theorem clearUnlightsEveryPixel : Obligations.ClearUnlightsEveryPixel :=
  ⟨encoded_of_mem_tier1 (tag := .CLS) (by decide), fun s x =>
    ⟨_, exec_cls x s, fun px py _ _ => Display.pixel_clear px py, rfl⟩⟩

/-- Settles O48: the range check covers `n` bytes, the drawing gives the pixels, and the one register written is `VF`. -/
theorem drawTogglesThePixelsUnderTheSprite : Obligations.DrawTogglesThePixelsUnderTheSprite := by
  refine ⟨encoded_of_mem_tier3 (tag := .DRW) (by decide), fun s x y n => ⟨fun hn hgt => ?_, fun hle => ?_⟩⟩
  · exact withRange_eq_afterFault (.drw x y n) s _ hn (by omega)
  · refine ⟨_, exec_drw_of_le hle, fun px py hpx hpy => State.pixel_drawn_of_covers hpx hpy,
      fun px py hpx hpy => State.pixel_drawn_of_not_covers hpx hpy, fun hhit => ?_, fun hmiss => ?_, fun z hz => ?_, rfl⟩
    · rw [State.setDisp_reg, State.reg_setReg_self, State.drawn_hit_iff.mpr hhit]
      rfl
    · rw [State.setDisp_reg, State.reg_setReg_self, Bool.eq_false_iff.mpr (mt State.drawn_hit_iff.mp hmiss)]
      rfl
    · rw [State.setDisp_reg, State.reg_setReg_of_ne _ _ hz]

end Sys2Proof.Claims
end

section
/-! SUPPORT. The encoder behind the decoder (spec/30_encoding.md R48, R50): the word of a decoded instruction is the
word it was decoded from, so a fault record holds the word that was fetched (R110). -/

namespace Sys2Proof

/-! ## The tables (R51) -/

theorem mem_of_lookupKey {table : List (Word × Tag)} {key : Word} {tag : Tag} (h : lookupKey table key = some tag) :
    (key, tag) ∈ table := by
  induction table with
  | nil => cases h
  | cons row rest ih =>
    rw [lookupKey] at h
    split at h
    · rename_i hkey
      cases h
      exact hkey ▸ List.mem_cons_self
    · exact List.mem_cons_of_mem row (ih h)

/-- R50: a tag is found in one of the three tables, under the word masked for it. -/
theorem mem_tier_of_dispatch {w : Word} {tag : Tag} (h : dispatch w = some tag) :
    (w &&& tier1Mask, tag) ∈ tier1 ∨ (w &&& tier2Mask, tag) ∈ tier2 ∨ (w &&& tier3Mask, tag) ∈ tier3 := by
  rw [dispatch] at h
  split at h
  · rename_i found
    exact .inl (mem_of_lookupKey (found.trans h))
  · split at h
    · rename_i found
      exact .inr (.inl (mem_of_lookupKey (found.trans h)))
    · exact .inr (.inr (mem_of_lookupKey h))

theorem dispatch_of_decodeWord {w : Word} {i : Instr} (h : decodeWord w = .ok i) :
    ∃ tag, dispatch w = some tag ∧ i = buildInstr tag w := by
  rw [decodeWord] at h
  split at h
  · rename_i tag htag
    cases h
    exact ⟨tag, htag, rfl⟩
  · cases h

/-! ## A word from its fields (R48) -/

section

variable {w key : Word}

theorem append_fieldX (w : Word) : w.extractLsb' 12 4 ++ fieldX w = w.extractLsb' 8 8 :=
  BitVec.extractLsb'_append_extractLsb'_eq_extractLsb' rfl

theorem append_fieldX_append_fieldY (w : Word) : w.extractLsb' 12 4 ++ fieldX w ++ fieldY w = w.extractLsb' 4 12 := by
  rw [append_fieldX]
  exact BitVec.extractLsb'_append_extractLsb'_eq_extractLsb' rfl

theorem append_fieldNNN (w : Word) : w.extractLsb' 12 4 ++ fieldNNN w = w :=
  (BitVec.extractLsb'_append_extractLsb'_eq_extractLsb' rfl).trans BitVec.extractLsb'_eq_self

theorem append_fieldX_append_fieldKK (w : Word) : w.extractLsb' 12 4 ++ fieldX w ++ fieldKK w = w := by
  rw [append_fieldX]
  exact (BitVec.extractLsb'_append_extractLsb'_eq_extractLsb' rfl).trans BitVec.extractLsb'_eq_self

theorem append_fieldX_append_fieldY_append_fieldN (w : Word) :
    w.extractLsb' 12 4 ++ fieldX w ++ fieldY w ++ fieldN w = w := by
  rw [append_fieldX_append_fieldY]
  exact (BitVec.extractLsb'_append_extractLsb'_eq_extractLsb' rfl).trans BitVec.extractLsb'_eq_self

/-- A field that the mask keeps whole is the key's. -/
theorem extractLsb'_eq_of_and_eq {mask : Word} {start len : Nat} (hw : w &&& mask = key)
    (hmask : mask.extractLsb' start len = BitVec.allOnes len) :
    w.extractLsb' start len = key.extractLsb' start len := by
  rw [← hw, BitVec.extractLsb'_and, hmask, BitVec.and_allOnes]

theorem formatX_fieldX (hw : w &&& tier1Mask = key) : formatX (key.extractLsb' 12 4) (fieldX w) (fieldKK key) = w := by
  rw [fieldKK, ← extractLsb'_eq_of_and_eq hw rfl, ← extractLsb'_eq_of_and_eq hw rfl]
  exact append_fieldX_append_fieldKK w

theorem formatXY_fieldX_fieldY (hw : w &&& tier2Mask = key) :
    formatXY (key.extractLsb' 12 4) (fieldX w) (fieldY w) (fieldN key) = w := by
  rw [fieldN, ← extractLsb'_eq_of_and_eq hw rfl, ← extractLsb'_eq_of_and_eq hw rfl]
  exact append_fieldX_append_fieldY_append_fieldN w

theorem formatA_fieldNNN (hw : w &&& tier3Mask = key) : formatA (key.extractLsb' 12 4) (fieldNNN w) = w := by
  rw [← extractLsb'_eq_of_and_eq hw rfl]
  exact append_fieldNNN w

theorem formatXK_fieldX_fieldKK (hw : w &&& tier3Mask = key) :
    formatXK (key.extractLsb' 12 4) (fieldX w) (fieldKK w) = w := by
  rw [← extractLsb'_eq_of_and_eq hw rfl]
  exact append_fieldX_append_fieldKK w

theorem formatXYN_fieldX_fieldY_fieldN (hw : w &&& tier3Mask = 0xD000#16) :
    formatXYN (fieldX w) (fieldY w) (fieldN w) = w := by
  have htop : w.extractLsb' 12 4 = 0xD#4 := extractLsb'_eq_of_and_eq hw rfl
  rw [formatXYN, ← htop]
  exact append_fieldX_append_fieldY_append_fieldN w

/-! ## The word of the instruction that a table gives -/

theorem encode_buildInstr_of_tier1 (w : Word) :
    ∀ row ∈ tier1, w &&& tier1Mask = row.1 → encode (buildInstr row.2 w) = w := by
  simp only [tier1, List.forall_mem_cons, List.not_mem_nil, false_imp_iff, implies_true, and_true]
  exact ⟨formatX_fieldX, formatX_fieldX, formatX_fieldX, formatX_fieldX, formatX_fieldX, formatX_fieldX,
    formatX_fieldX, formatX_fieldX, formatX_fieldX, formatX_fieldX, formatX_fieldX, formatX_fieldX, formatX_fieldX⟩

theorem encode_buildInstr_of_tier2 (w : Word) :
    ∀ row ∈ tier2, w &&& tier2Mask = row.1 → encode (buildInstr row.2 w) = w := by
  simp only [tier2, List.forall_mem_cons, List.not_mem_nil, false_imp_iff, implies_true, and_true]
  exact ⟨formatXY_fieldX_fieldY, formatXY_fieldX_fieldY, formatXY_fieldX_fieldY, formatXY_fieldX_fieldY,
    formatXY_fieldX_fieldY, formatXY_fieldX_fieldY, formatXY_fieldX_fieldY, formatXY_fieldX_fieldY,
    formatXY_fieldX_fieldY, formatXY_fieldX_fieldY, formatXY_fieldX_fieldY⟩

theorem encode_buildInstr_of_tier3 (w : Word) :
    ∀ row ∈ tier3, w &&& tier3Mask = row.1 → encode (buildInstr row.2 w) = w := by
  simp only [tier3, List.forall_mem_cons, List.not_mem_nil, false_imp_iff, implies_true, and_true]
  exact ⟨formatA_fieldNNN, formatA_fieldNNN, formatXK_fieldX_fieldKK, formatXK_fieldX_fieldKK, formatXK_fieldX_fieldKK,
    formatXK_fieldX_fieldKK, formatA_fieldNNN, formatA_fieldNNN, formatXK_fieldX_fieldKK,
    formatXYN_fieldX_fieldY_fieldN⟩

/-- No bit of a recognized word is lost (R36, R48). -/
theorem encode_of_decodeWord {i : Instr} (h : decodeWord w = .ok i) : encode i = w := by
  obtain ⟨tag, htag, rfl⟩ := dispatch_of_decodeWord h
  rcases mem_tier_of_dispatch htag with hmem | hmem | hmem
  · exact encode_buildInstr_of_tier1 w _ hmem rfl
  · exact encode_buildInstr_of_tier2 w _ hmem rfl
  · exact encode_buildInstr_of_tier3 w _ hmem rfl

end

end Sys2Proof
end

section
/-! SUPPORT. Exceptions (spec/60_exceptions.md): the fault that the cycle of an unhalted unit raises, read off the state
that the cycle begins with (R107); the two ways such a cycle ends (R109, R110); what it leaves in the timers (R117); and
the codes that the `fault_code` port shows (R28). -/

namespace Sys2Proof.Machine

open Sys2Proof Sys2Proof.Claims

/-! ## The `fault_code` port (R28) -/

/-- No two causes share a code. -/
theorem FaultCode.toBits_injective : Function.Injective FaultCode.toBits := by
  intro a b h
  cases a <;> cases b <;> simp [FaultCode.toBits] at h ⊢

/-- Codes 6 and 7 are reserved. -/
theorem FaultCode.toBits_lt (c : FaultCode) : c.toBits < 6#3 := by
  cases c <;> decide

theorem State.faultCodeOut_eq_iff (s : State) (c : FaultCode) : s.faultCodeOut = c.toBits ↔ s.fault.code = c :=
  FaultCode.toBits_injective.eq_iff

/-! ## The fault of a cycle (R107) -/

/-- The fault that the cycle of an unhalted unit raises, with its `fault_info`, if it raises one. -/
def cycleFault (s : State) : Option (FaultCode × Nat) :=
  if 0x0FFE < s.pc.toNat then some (.fetchOutOfRange, s.pc.toNat)
  else
    match decodeWord (wordAtPc s) with
    | .ok i => faultOf i s
    | .error _ => none

/-- The `fault_opcode` of a fault of the cycle: the fetched word, or 0 when none was fetched (R28). -/
def faultOpcode (s : State) (code : FaultCode) : Word :=
  if code = .fetchOutOfRange then 0#16 else wordAtPc s

section

variable {s t : State} {i : Instr} {code : FaultCode} {info : Nat}

theorem cycleFault_of_pc_gt (h : 0x0FFE < s.pc.toNat) : cycleFault s = some (.fetchOutOfRange, s.pc.toNat) :=
  if_pos h

theorem cycleFault_of_decodes (hpc : s.pc.toNat ≤ 0x0FFE) (hi : decodeWord (wordAtPc s) = .ok i) :
    cycleFault s = faultOf i s := by
  rw [cycleFault, if_neg (Nat.not_lt.mpr hpc), hi]

theorem cycleFault_of_unrecognized {e : DecodeError} (hpc : s.pc.toNat ≤ 0x0FFE)
    (he : decodeWord (wordAtPc s) = .error e) : cycleFault s = none := by
  rw [cycleFault, if_neg (Nat.not_lt.mpr hpc), he]

theorem cycleFault_eq_some_iff : cycleFault s = some (code, info) ↔
    (0x0FFE < s.pc.toNat ∧ code = .fetchOutOfRange ∧ info = s.pc.toNat) ∨
      (s.pc.toNat ≤ 0x0FFE ∧ ∃ i, decodeWord (wordAtPc s) = .ok i ∧ faultOf i s = some (code, info)) := by
  rcases Nat.lt_or_ge 0x0FFE s.pc.toNat with hpc | hpc
  · simp [cycleFault_of_pc_gt hpc, hpc, Nat.not_le.mpr hpc, eq_comm]
  · cases hd : decodeWord (wordAtPc s) with
    | ok i => simp [cycleFault_of_decodes hpc hd, hpc, Nat.not_lt.mpr hpc]
    | error e => simp [cycleFault_of_unrecognized hpc hd, Nat.not_lt.mpr hpc]

theorem cycleFault_code_ne_noFault (h : cycleFault s = some (code, info)) : code ≠ .noFault := by
  rcases cycleFault_eq_some_iff.mp h with ⟨_, rfl, _⟩ | ⟨_, i, _, hf⟩
  · exact FaultCode.noConfusion
  · exact (faultOf_code hf).2

theorem cycleFault_eq_some_iff_of_ne (hcode : code ≠ .fetchOutOfRange) : cycleFault s = some (code, info) ↔
    s.pc.toNat ≤ 0x0FFE ∧ ∃ i, decodeWord (wordAtPc s) = .ok i ∧ faultOf i s = some (code, info) := by
  simp only [cycleFault_eq_some_iff, hcode, false_and, and_false, false_or]

/-! ### Cause by cause -/

theorem overruns_iff (s : State) (c : Nat) : Overruns s c ↔ 0 < c ∧ 0x1000 < s.index.toNat + c := by
  unfold Overruns
  omega

theorem faultOf_eq_stackOverflow_iff :
    faultOf i s = some (.stackOverflow, info) ↔ (∃ nnn, i = .call nnn) ∧ s.sp.val = 16 ∧ info = 16 := by
  simp [faultOf_eq_some, and_comm]

theorem faultOf_eq_stackUnderflow_iff :
    faultOf i s = some (.stackUnderflow, info) ↔ (∃ x, i = .ret x) ∧ s.sp.val = 0 ∧ info = 0 := by
  simp [faultOf_eq_some, and_comm]

theorem faultOf_eq_keyIndexOutOfRange_iff :
    faultOf i s = some (.keyIndexOutOfRange, info) ↔
      ∃ x, (i = .skp x ∨ i = .sknp x) ∧ info = (s.reg x).toNat ∧ 0xF < (s.reg x).toNat := by
  simp [faultOf_eq_some]

theorem faultOf_eq_dataOutOfRange_iff :
    faultOf i s = some (.dataOutOfRange, info) ↔
      ((∃ x y n, i = .drw x y n ∧ Overruns s n.toNat) ∨ (∃ x, i = .ldBVx x ∧ Overruns s 3) ∨
        (∃ x, i = .ldMemVx x ∧ Overruns s (x.toNat + 1)) ∨ ∃ x, i = .ldVxMem x ∧ Overruns s (x.toNat + 1)) ∧
      info = max s.index.toNat 0x1000 := by
  rw [faultOf_eq_some]
  cases i <;> simp [overruns_iff, and_comm]

theorem cycleFault_eq_fetchOutOfRange_iff :
    cycleFault s = some (.fetchOutOfRange, info) ↔ 0x0FFE < s.pc.toNat ∧ info = s.pc.toNat := by
  have hinstr : ∀ i, faultOf i s ≠ some (.fetchOutOfRange, info) := fun i hf => (faultOf_code hf).1 rfl
  simp only [cycleFault_eq_some_iff, hinstr, true_and, and_false, exists_false, or_false]

theorem cycleFault_eq_stackOverflow_iff :
    cycleFault s = some (.stackOverflow, info) ↔
      (s.pc.toNat ≤ 0x0FFE ∧ s.sp.val = 16 ∧ ∃ nnn, decodeWord (wordAtPc s) = .ok (.call nnn)) ∧ info = 16 := by
  simp only [cycleFault_eq_some_iff_of_ne (code := .stackOverflow) FaultCode.noConfusion, faultOf_eq_stackOverflow_iff]
  constructor
  · rintro ⟨hpc, _, hi, ⟨nnn, rfl⟩, hsp, hinfo⟩
    exact ⟨⟨hpc, hsp, nnn, hi⟩, hinfo⟩
  · rintro ⟨⟨hpc, hsp, nnn, hi⟩, hinfo⟩
    exact ⟨hpc, _, hi, ⟨nnn, rfl⟩, hsp, hinfo⟩

theorem cycleFault_eq_stackUnderflow_iff :
    cycleFault s = some (.stackUnderflow, info) ↔
      (s.pc.toNat ≤ 0x0FFE ∧ s.sp.val = 0 ∧ ∃ x, decodeWord (wordAtPc s) = .ok (.ret x)) ∧ info = 0 := by
  simp only [cycleFault_eq_some_iff_of_ne (code := .stackUnderflow) FaultCode.noConfusion,
    faultOf_eq_stackUnderflow_iff]
  constructor
  · rintro ⟨hpc, _, hi, ⟨x, rfl⟩, hsp, hinfo⟩
    exact ⟨⟨hpc, hsp, x, hi⟩, hinfo⟩
  · rintro ⟨⟨hpc, hsp, x, hi⟩, hinfo⟩
    exact ⟨hpc, _, hi, ⟨x, rfl⟩, hsp, hinfo⟩

theorem cycleFault_eq_keyIndexOutOfRange_iff :
    cycleFault s = some (.keyIndexOutOfRange, info) ↔ s.pc.toNat ≤ 0x0FFE ∧
      ∃ x, (decodeWord (wordAtPc s) = .ok (.skp x) ∨ decodeWord (wordAtPc s) = .ok (.sknp x)) ∧
        info = (s.reg x).toNat ∧ 0xF < (s.reg x).toNat := by
  simp only [cycleFault_eq_some_iff_of_ne (code := .keyIndexOutOfRange) FaultCode.noConfusion,
    faultOf_eq_keyIndexOutOfRange_iff]
  constructor
  · rintro ⟨hpc, _, hi, x, rfl | rfl, hkey⟩
    · exact ⟨hpc, x, .inl hi, hkey⟩
    · exact ⟨hpc, x, .inr hi, hkey⟩
  · rintro ⟨hpc, x, hi | hi, hkey⟩
    · exact ⟨hpc, _, hi, x, .inl rfl, hkey⟩
    · exact ⟨hpc, _, hi, x, .inr rfl, hkey⟩

theorem cycleFault_eq_dataOutOfRange_iff :
    cycleFault s = some (.dataOutOfRange, info) ↔ (s.pc.toNat ≤ 0x0FFE ∧
      ((∃ x y n, decodeWord (wordAtPc s) = .ok (.drw x y n) ∧ Overruns s n.toNat) ∨
       (∃ x, decodeWord (wordAtPc s) = .ok (.ldBVx x) ∧ Overruns s 3) ∨
       (∃ x, decodeWord (wordAtPc s) = .ok (.ldMemVx x) ∧ Overruns s (x.toNat + 1)) ∨
       (∃ x, decodeWord (wordAtPc s) = .ok (.ldVxMem x) ∧ Overruns s (x.toNat + 1)))) ∧
      info = max s.index.toNat 0x1000 := by
  simp only [cycleFault_eq_some_iff_of_ne (code := .dataOutOfRange) FaultCode.noConfusion,
    faultOf_eq_dataOutOfRange_iff]
  constructor
  · rintro ⟨hpc, _, hi, ⟨x, y, n, rfl, hover⟩ | ⟨x, rfl, hover⟩ | ⟨x, rfl, hover⟩ | ⟨x, rfl, hover⟩, hinfo⟩
    · exact ⟨⟨hpc, .inl ⟨x, y, n, hi, hover⟩⟩, hinfo⟩
    · exact ⟨⟨hpc, .inr (.inl ⟨x, hi, hover⟩)⟩, hinfo⟩
    · exact ⟨⟨hpc, .inr (.inr (.inl ⟨x, hi, hover⟩))⟩, hinfo⟩
    · exact ⟨⟨hpc, .inr (.inr (.inr ⟨x, hi, hover⟩))⟩, hinfo⟩
  · rintro ⟨⟨hpc, ⟨x, y, n, hi, hover⟩ | ⟨x, hi, hover⟩ | ⟨x, hi, hover⟩ | ⟨x, hi, hover⟩⟩, hinfo⟩
    · exact ⟨hpc, _, hi, .inl ⟨x, y, n, rfl, hover⟩, hinfo⟩
    · exact ⟨hpc, _, hi, .inr (.inl ⟨x, rfl, hover⟩), hinfo⟩
    · exact ⟨hpc, _, hi, .inr (.inr (.inl ⟨x, rfl, hover⟩)), hinfo⟩
    · exact ⟨hpc, _, hi, .inr (.inr (.inr ⟨x, rfl, hover⟩)), hinfo⟩

/-- Every `fault_info` fits its 17 bits (R28). -/
theorem cycleFault_info_lt (h : cycleFault s = some (code, info)) : info < 2 ^ 17 := by
  have hpc := s.pc.isLt
  have hindex := s.index.isLt
  cases code with
  | noFault => exact absurd rfl (cycleFault_code_ne_noFault h)
  | fetchOutOfRange =>
    obtain ⟨_, rfl⟩ := cycleFault_eq_fetchOutOfRange_iff.mp h
    omega
  | dataOutOfRange =>
    obtain ⟨_, rfl⟩ := cycleFault_eq_dataOutOfRange_iff.mp h
    omega
  | stackOverflow =>
    obtain ⟨_, rfl⟩ := cycleFault_eq_stackOverflow_iff.mp h
    decide
  | stackUnderflow =>
    obtain ⟨_, rfl⟩ := cycleFault_eq_stackUnderflow_iff.mp h
    decide
  | keyIndexOutOfRange =>
    obtain ⟨_, x, _, rfl, _⟩ := cycleFault_eq_keyIndexOutOfRange_iff.mp h
    have hx := (s.reg x).isLt
    omega

/-! ## The two ends of a cycle of an unhalted unit -/

/-- No instruction's fault depends on the fetch advance or on the report (R66). -/
theorem faultOf_advance_clearReport (i : Instr) (s : State) : faultOf i s.advance.clearReport = faultOf i s := by
  cases i <;> rfl

/-- R109, R110: a fault enters on the state that the cycle began with. -/
theorem step_of_cycleFault_eq_some (hs : s.fault.code = .noFault) (hf : cycleFault s = some (code, info)) :
    step s = .next (s.takeFault code (BitVec.ofNat 17 info) s.pc (faultOpcode s code)) := by
  rcases cycleFault_eq_some_iff.mp hf with ⟨hpc, rfl, rfl⟩ | ⟨hpc, i, hi, hfi⟩
  · exact step_of_pc_gt hs hpc
  · obtain ⟨hfetch, hfault⟩ := faultOf_code hfi
    obtain ⟨u, hu⟩ := exec_answers i s.advance.clearReport
    rcases exec_cases hu with ⟨hnone, _⟩ | ⟨code', info', hsome, rfl⟩
    · rw [faultOf_advance_clearReport, hfi] at hnone
      cases hnone
    · rw [faultOf_advance_clearReport, hfi] at hsome
      cases hsome
      have hback : s.advance.clearReport.pc - 2#16 = s.pc := BitVec.add_sub_cancel s.pc 2#16
      rw [step_of_decodes ⟨hs, hpc⟩ hi, hu, finishCycle_next_of_fault hfault, hback, encode_of_decodeWord hi,
        faultOpcode, if_neg hfetch]
      rfl

/-- R117: a cycle that raises no fault ends with the countdown, after the instruction's effect or the report. -/
theorem step_of_cycleFault_eq_none (hs : s.fault.code = .noFault) (hf : cycleFault s = none) :
    (∃ e, decodeWord (wordAtPc s) = .error e ∧
        step s = .next (s.advance.reportUnrecognized (wordAtPc s) s.pc).countdown) ∨
      ∃ i u, decodeWord (wordAtPc s) = .ok i ∧ exec i s.advance.clearReport = .next u ∧ u.fault = s.fault ∧
        step s = .next u.countdown := by
  have hpc : s.pc.toNat ≤ 0x0FFE := by
    by_contra hgt
    rw [cycleFault_of_pc_gt (Nat.not_le.mp hgt)] at hf
    cases hf
  cases hd : decodeWord (wordAtPc s) with
  | error e => exact .inl ⟨e, rfl, step_of_unrecognized ⟨hs, hpc⟩ hd⟩
  | ok i =>
    obtain ⟨u, hu⟩ := exec_answers i s.advance.clearReport
    rcases exec_cases hu with ⟨_, hkept, _⟩ | ⟨code, info, hsome, _⟩
    · have hu_fault : u.fault.code = .noFault := hkept ▸ hs
      exact .inr ⟨i, u, rfl, hu, hkept, by rw [step_of_decodes ⟨hs, hpc⟩ hd, hu, finishCycle_next_of_noFault hu_fault]⟩
    · rw [faultOf_advance_clearReport, ← cycleFault_of_decodes hpc hd, hf] at hsome
      cases hsome

theorem fault_of_cycleFault_eq_none (hs : s.fault.code = .noFault) (h : step s = .next t) (hf : cycleFault s = none) :
    t.fault = s.fault := by
  rcases step_of_cycleFault_eq_none hs hf with ⟨e, _, hstep⟩ | ⟨i, u, _, _, hu, hstep⟩ <;> cases h.symm.trans hstep
  · rfl
  · exact hu

/-- What a cycle that ends with a fault latched has done. -/
theorem takeFault_of_fault (hs : s.fault.code = .noFault) (h : step s = .next t) (ht : t.fault.code ≠ .noFault) :
    ∃ code info, cycleFault s = some (code, info) ∧
      t = s.takeFault code (BitVec.ofNat 17 info) s.pc (faultOpcode s code) := by
  cases hf : cycleFault s with
  | none => exact absurd (fault_of_cycleFault_eq_none hs h hf ▸ hs) ht
  | some cause =>
    cases h.symm.trans (step_of_cycleFault_eq_some hs hf)
    exact ⟨_, _, rfl, rfl⟩

theorem cycleFault_of_fault (hs : s.fault.code = .noFault) (h : step s = .next t) (hcode : code ≠ .noFault)
    (ht : t.fault.code = code) : ∃ info, cycleFault s = some (code, info) ∧ t.fault.info.toNat = info := by
  obtain ⟨code', info, hf, rfl⟩ := takeFault_of_fault hs h (ht ▸ hcode)
  cases ht
  exact ⟨info, hf, Nat.mod_eq_of_lt (cycleFault_info_lt hf)⟩

theorem fault_code_eq_iff (hs : s.fault.code = .noFault) (h : step s = .next t) (hcode : code ≠ .noFault) :
    t.fault.code = code ↔ ∃ info, cycleFault s = some (code, info) := by
  constructor
  · intro ht
    obtain ⟨info, hf, _⟩ := cycleFault_of_fault hs h hcode ht
    exact ⟨info, hf⟩
  · rintro ⟨info, hf⟩
    cases h.symm.trans (step_of_cycleFault_eq_some hs hf)
    rfl

/-- A code that has one cause and one `fault_info`. -/
theorem fault_code_iff_of_cause {cause : Prop} (hs : s.fault.code = .noFault) (h : step s = .next t)
    (hcode : code ≠ .noFault) (hcause : ∀ n, cycleFault s = some (code, n) ↔ cause ∧ n = info) :
    (t.fault.code = code ↔ cause) ∧ (t.fault.code = code → t.fault.info.toNat = info) := by
  constructor
  · simp only [fault_code_eq_iff hs h hcode, hcause, exists_eq, exists_and_left, and_true]
  · intro ht
    obtain ⟨_, hf, hn⟩ := cycleFault_of_fault hs h hcode ht
    exact hn.trans ((hcause _).mp hf).2

theorem cycleFault_eq_none_of_noFault (hs : s.fault.code = .noFault) (h : step s = .next t)
    (ht : t.fault.code = .noFault) : cycleFault s = none := by
  cases hf : cycleFault s with
  | none => rfl
  | some cause =>
    cases h.symm.trans (step_of_cycleFault_eq_some hs hf)
    exact absurd ht (cycleFault_code_ne_noFault hf)

end

/-! ## The timers of a cycle (R117) -/

/-- What an instruction leaves in `DT` (R102). -/
def dtAfter (i : Instr) (s : State) : Byte :=
  match i with
  | .ldDtVx x => s.reg x
  | _ => s.dt

/-- What an instruction leaves in `ST` (R103). -/
def stAfter (i : Instr) (s : State) : Byte :=
  match i with
  | .ldStVx x => s.reg x
  | _ => s.st

/-- Every next state that the result answers holds these timers. -/
def LeavesTimers (dt st : Byte) (r : Result) : Prop :=
  ∀ t, r = .next t → t.dt = dt ∧ t.st = st

theorem leavesTimers_next (t : State) : LeavesTimers t.dt t.st (.next t) := by
  rintro _ ⟨⟩
  exact ⟨rfl, rfl⟩

theorem leavesTimers_ite {dt st : Byte} {r r' : Result} (p : Prop) [Decidable p] (hr : LeavesTimers dt st r)
    (hr' : LeavesTimers dt st r') : LeavesTimers dt st (if p then r else r') := by
  split
  · exact hr
  · exact hr'

theorem leavesTimers_raise (code : FaultCode) (info : Nat) (i : Instr) (s : State) :
    LeavesTimers s.dt s.st (raise code info i s) := leavesTimers_next _

theorem leavesTimers_skipIf (c : Bool) (s : State) : LeavesTimers s.dt s.st (skipIf c s) := by
  cases c <;> exact leavesTimers_next _

theorem leavesTimers_skipOnKey (x : Reg) (held : Bool) (i : Instr) (s : State) :
    LeavesTimers s.dt s.st (skipOnKey x held i s) :=
  leavesTimers_ite _ (leavesTimers_raise _ _ i s) (leavesTimers_skipIf _ s)

theorem leavesTimers_withRange (b c : Nat) (i : Instr) {s t : State} (hdt : t.dt = s.dt) (hst : t.st = s.st) :
    LeavesTimers s.dt s.st (withRange b c i s t) := by
  rcases withRange_cases b c i s t with ⟨heq, _⟩ | ⟨heq, _⟩ <;> rw [heq]
  · exact hdt ▸ hst ▸ leavesTimers_next t
  · exact leavesTimers_raise _ _ i s

/-- Only `Fx15` writes `DT`, and only `Fx18` writes `ST`. -/
theorem leavesTimers_exec (i : Instr) (s : State) : LeavesTimers (dtAfter i s) (stAfter i s) (exec i s) := by
  cases i
  case ret x => exact leavesTimers_ite _ (leavesTimers_raise _ _ _ s) (leavesTimers_next _)
  case call nnn => exact leavesTimers_ite _ (leavesTimers_raise _ _ _ s) (leavesTimers_next _)
  case seImm x kk => exact leavesTimers_skipIf _ s
  case sneImm x kk => exact leavesTimers_skipIf _ s
  case seReg x y => exact leavesTimers_skipIf _ s
  case sneReg x y => exact leavesTimers_skipIf _ s
  case skp x => exact leavesTimers_skipOnKey x _ _ s
  case sknp x => exact leavesTimers_skipOnKey x _ _ s
  case drw x y n => exact leavesTimers_withRange _ _ _ rfl rfl
  case ldBVx x => exact leavesTimers_withRange _ _ _ rfl rfl
  case ldMemVx x => exact leavesTimers_withRange _ _ _ rfl rfl
  case ldVxMem x =>
    exact leavesTimers_withRange _ _ _ (by rw [State.loadRegs_frame]) (by rw [State.loadRegs_frame])
  case ldVxK x =>
    cases hkey : highestHeld s.key 16 with
    | none =>
      rw [exec_ldVxK_of_none x hkey]
      exact leavesTimers_next _
    | some k =>
      rw [exec_ldVxK_of_some x hkey]
      exact leavesTimers_next _
  all_goals exact leavesTimers_next _

theorem dtAfter_of_ne {i : Instr} (s : State) (h : ∀ x, i ≠ .ldDtVx x) : dtAfter i s = s.dt := by
  cases i
  case ldDtVx x => exact absurd rfl (h x)
  all_goals rfl

theorem stAfter_of_ne {i : Instr} (s : State) (h : ∀ x, i ≠ .ldStVx x) : stAfter i s = s.st := by
  cases i
  case ldStVx x => exact absurd rfl (h x)
  all_goals rfl

theorem dtAfter_advance_clearReport (i : Instr) (s : State) : dtAfter i s.advance.clearReport = dtAfter i s := by
  cases i <;> rfl

theorem stAfter_advance_clearReport (i : Instr) (s : State) : stAfter i s.advance.clearReport = stAfter i s := by
  cases i <;> rfl

theorem tick_eq_counted : tick = counted := rfl

/-- The timers after a cycle that raises no fault. -/
theorem timers_of_noFault {s t : State} (hs : s.fault.code = .noFault) (h : step s = .next t)
    (ht : t.fault.code = .noFault) :
    (∃ e, decodeWord (wordAtPc s) = .error e ∧ t.dt = counted s.dt ∧ t.st = counted s.st) ∨
      ∃ i, decodeWord (wordAtPc s) = .ok i ∧ t.dt = counted (dtAfter i s) ∧ t.st = counted (stAfter i s) := by
  rcases step_of_cycleFault_eq_none hs (cycleFault_eq_none_of_noFault hs h ht) with
      ⟨e, he, hstep⟩ | ⟨i, u, hi, hu, _, hstep⟩ <;> cases h.symm.trans hstep
  · exact .inl ⟨e, he, rfl, rfl⟩
  · obtain ⟨hdt, hst⟩ := leavesTimers_exec i _ u hu
    rw [dtAfter_advance_clearReport] at hdt
    rw [stAfter_advance_clearReport] at hst
    exact .inr ⟨i, hi, by rw [State.countdown_dt, hdt, tick_eq_counted],
      by rw [State.countdown_st, hst, tick_eq_counted]⟩

end Sys2Proof.Machine

namespace Sys2Proof.Claims

open Sys2Proof Sys2Proof.Machine

/-- Settles O11: fault entry writes the record and the report of the state that the cycle began with. -/
theorem faultsArePrecise : Obligations.FaultsArePrecise := by
  intro s t hs h ht
  obtain ⟨code, info, _, rfl⟩ := takeFault_of_fault hs h ht
  exact ⟨rfl, rfl, fun hfetch => if_pos hfetch, fun hinstr => if_neg hinstr, (State.halted_iff _).mpr ht⟩

/-- Settles O12: each code is that of the cycle's fault, which is read off the state cause by cause. -/
theorem faultsAreRaisedExactlyOnTheirCauses : Obligations.FaultsAreRaisedExactlyOnTheirCauses := by
  intro s t hs h
  obtain ⟨hfetch, hfetchInfo⟩ :=
    fault_code_iff_of_cause hs h FaultCode.noConfusion fun _ => cycleFault_eq_fetchOutOfRange_iff
  obtain ⟨hdata, hdataInfo⟩ :=
    fault_code_iff_of_cause hs h FaultCode.noConfusion fun _ => cycleFault_eq_dataOutOfRange_iff
  obtain ⟨hover, hoverInfo⟩ :=
    fault_code_iff_of_cause hs h FaultCode.noConfusion fun _ => cycleFault_eq_stackOverflow_iff
  obtain ⟨hunder, hunderInfo⟩ :=
    fault_code_iff_of_cause hs h FaultCode.noConfusion fun _ => cycleFault_eq_stackUnderflow_iff
  refine ⟨hfetch, hdata, hover, hunder, ⟨fun ht => ?_, ?_⟩, hfetchInfo, hdataInfo, hoverInfo, hunderInfo, fun ht => ?_⟩
  · obtain ⟨_, hf⟩ := (fault_code_eq_iff hs h FaultCode.noConfusion).mp ht
    obtain ⟨hpc, x, hx, _, hgt⟩ := cycleFault_eq_keyIndexOutOfRange_iff.mp hf
    exact ⟨hpc, x, hx, hgt⟩
  · rintro ⟨hpc, x, hx, hgt⟩
    exact (fault_code_eq_iff hs h FaultCode.noConfusion).mpr
      ⟨_, cycleFault_eq_keyIndexOutOfRange_iff.mpr ⟨hpc, x, hx, rfl, hgt⟩⟩
  · obtain ⟨_, hf, rfl⟩ := cycleFault_of_fault hs h FaultCode.noConfusion ht
    obtain ⟨_, x, hx, hinfo, _⟩ := cycleFault_eq_keyIndexOutOfRange_iff.mp hf
    exact ⟨x, hx, hinfo⟩

/-- Settles O14: the cycle counts down what its instruction leaves, which is the old value but for the two writers. -/
theorem everyCompletedCycleCountsTheTimersDown : Obligations.EveryCompletedCycleCountsTheTimersDown := by
  intro s t h
  refine ⟨fun hs ht => ?_, fun ht => ?_⟩
  · rcases timers_of_noFault hs h ht with ⟨e, he, hdt, hst⟩ | ⟨i, hi, hdt, hst⟩
    · have hno : ∀ i, decodeWord (wordAtPc s) ≠ .ok i := fun i hi => by cases he.symm.trans hi
      exact ⟨fun _ => hdt, fun _ hx => absurd hx (hno _), fun _ => hst, fun _ hx => absurd hx (hno _)⟩
    · refine ⟨fun hne => ?_, fun x hx => ?_, fun hne => ?_, fun x hx => ?_⟩
      · rw [hdt, dtAfter_of_ne s fun x hx => hne x (hx ▸ hi)]
      · cases hi.symm.trans hx
        exact hdt
      · rw [hst, stAfter_of_ne s fun x hx => hne x (hx ▸ hi)]
      · cases hi.symm.trans hx
        exact hst
  · by_cases hs : s.fault.code = .noFault
    · obtain ⟨code, info, _, rfl⟩ := takeFault_of_fault hs h ht
      exact ⟨rfl, rfl⟩
    · cases h.symm.trans (step_of_fault hs)
      exact ⟨rfl, rfl⟩

/-- Settles O27: the port shows each cause by a code of its own, below 6. -/
theorem statusPortsFollowTheState : Obligations.StatusPortsFollowTheState := fun s =>
  have hport := s.faultCodeOut_eq_iff
  have hlt : s.faultCodeOut < 6#3 := s.fault.code.toBits_lt
  ⟨bne_iff_ne, rfl, rfl, s.halted_iff.trans (hport .noFault).not.symm, hport .noFault, hport .fetchOutOfRange,
    hport .dataOutOfRange, hport .stackOverflow, hport .stackUnderflow, hport .keyIndexOutOfRange,
    BitVec.ne_of_lt hlt, BitVec.ne_of_lt (BitVec.lt_trans hlt (by decide))⟩

end Sys2Proof.Claims
end

section
/-! SUPPORT. The host's moves that write memory (spec/70_reset_and_hazards.md): what memory reads as after power-on
(R123) and after a ROM load (R125), and the three ways that a ROM load ends. -/

namespace Sys2Proof.Machine

open Sys2Proof

/-! ## Power-on (R123) -/

theorem Memory.unlisted_of_outside_font {a : Nat} (h : a < 0x050 ∨ 0x09F < a) : Memory.unlisted a = 0#8 :=
  if_neg (by omega)

@[simp] theorem State.powerOn_mem (font : Vector Byte 80) :
    (State.powerOn font).mem = Memory.writeBytes [] 0x050 font.toList := rfl

@[simp] theorem State.powerOn_reg (font : Vector Byte 80) (r : Reg) : (State.powerOn font).reg r = 0#8 :=
  Vector.getElem_replicate r.isLt

@[simp] theorem State.powerOn_getElem_stack (font : Vector Byte 80) (k : Fin 16) :
    (State.powerOn font).stack[k] = 0#16 :=
  Vector.getElem_replicate k.isLt

@[simp] theorem State.powerOn_getElem_key (font : Vector Byte 80) (k : Fin 16) :
    (State.powerOn font).key[k] = false :=
  BitVec.getElem_zero k.isLt

/-- The display is the one that `00E0` leaves (R104). -/
@[simp] theorem State.powerOn_pixel (font : Vector Byte 80) (px py : Nat) :
    (State.powerOn font).disp.pixel px py = false :=
  Display.pixel_clear px py

/-- The 80 bytes of `FONT_ROM` lie in the font area, whatever they are. -/
theorem State.read_powerOn_font (font : Vector Byte 80) (j : Fin 80) :
    (State.powerOn font).mem.read (0x050 + j.val) = font[j] := by
  have hj : j.val < font.toList.length := by
    rw [Vector.length_toList]
    exact j.isLt
  rw [State.powerOn_mem, Memory.read_writeBytes_add [] 0x050 hj, Vector.getElem_toList]
  rfl

theorem State.read_powerOn_of_outside_font (font : Vector Byte 80) {a : Nat} (h : a < 0x050 ∨ 0x09F < a) :
    (State.powerOn font).mem.read a = 0#8 := by
  have hout : a < 0x050 ∨ 0x050 + font.toList.length ≤ a := by
    rw [Vector.length_toList]
    omega
  calc (State.powerOn font).mem.read a
      = Memory.read [] a := Memory.read_writeBytes_of_outside [] hout
    _ = 0#8 := Memory.unlisted_of_outside_font h

/-! ## ROM load (R125) -/

theorem State.romLoad_none (s : State) : s.romLoad none = (.loaded, s.hostReset) := rfl

theorem State.romLoad_of_le (s : State) {bytes : List Byte} (h : bytes.length ≤ 3584) :
    s.romLoad (some bytes) = (.loaded, s.hostReset.setMem (s.mem.writeBytes 0x200 bytes)) :=
  if_neg (Nat.not_lt.mpr h)

theorem State.romLoad_of_gt (s : State) {bytes : List Byte} (h : 3584 < bytes.length) :
    s.romLoad (some bytes) = (.refused, s.hostReset) :=
  if_pos h

theorem State.romLoad_nil (s : State) : s.romLoad (some []) = (.loaded, s.hostReset) :=
  s.romLoad_of_le (Nat.zero_le 3584)

end Sys2Proof.Machine

namespace Sys2Proof.Claims

open Sys2Proof Sys2Proof.Machine

/-- Settles O22: memory is the font written over content that is 0 outside the font area; `reset()` writes none of it. -/
theorem powerOnGivesTheListedValues : Obligations.PowerOnGivesTheListedValues :=
  ⟨fun font => ⟨rfl, State.powerOn_reg font, rfl, rfl, State.powerOn_getElem_stack font, rfl, rfl,
    State.powerOn_getElem_key font, fun px py _ _ => State.powerOn_pixel font px py,
    State.read_powerOn_font font, fun _ _ h => State.read_powerOn_of_outside_font font h,
    rfl, rfl, rfl⟩, State.hostReset_mem⟩

/-- Settles O24: the length of the image decides, and what loads is one block written at 0x200 after `reset()`. -/
theorem romLoadResetsAndCopies : Obligations.RomLoadResetsAndCopies := by
  intro s
  refine ⟨fun bytes hle => ⟨_, s.romLoad_of_le hle, rfl, fun k => ?copied, fun a ha => ?kept⟩,
    fun _ hgt => s.romLoad_of_gt hgt, s.romLoad_nil, s.romLoad_none, fun _ => rfl⟩
  case copied => exact s.mem.read_writeBytes_add 0x200 k.isLt
  case kept => exact s.mem.read_writeBytes_of_outside ha

/-- Settles O23: `reset()` is one update of the record, and the cleared fault record and report are all 0. -/
theorem hostResetWritesTheListedFields : Obligations.HostResetWritesTheListedFields := fun _ => rfl

end Sys2Proof.Claims
end

section
/-! SUPPORT. The decoder over the whole instruction set (spec/30_encoding.md): it inverts the encoder (R48, R50), the
unrecognized words by their fields (R54), and what the assembler (R56) and the debug lookup (R57) make of it. -/

namespace Sys2Proof

open Sys2Proof.Claims

/-! ## The decoder inverts the encoder (R48, R50) -/

/-- The tag of an instruction (R51). -/
def tagOf : Instr → Tag
  | .cls _ => .CLS | .ret _ => .RET | .jp _ => .JP | .call _ => .CALL | .seImm _ _ => .SE_IMM | .sneImm _ _ => .SNE_IMM
  | .seReg _ _ => .SE_REG | .ldImm _ _ => .LD_IMM | .addImm _ _ => .ADD_IMM | .ldReg _ _ => .LD_REG | .orReg _ _ => .OR
  | .andReg _ _ => .AND | .xorReg _ _ => .XOR | .addReg _ _ => .ADD_REG | .subReg _ _ => .SUB | .shr _ _ => .SHR
  | .subnReg _ _ => .SUBN | .shl _ _ => .SHL | .sneReg _ _ => .SNE_REG | .ldI _ => .LD_I | .jpV0 _ => .JP_V0
  | .rnd _ _ => .RND | .drw _ _ _ => .DRW | .skp _ => .SKP | .sknp _ => .SKNP | .ldVxDt _ => .LD_VX_DT
  | .ldVxK _ => .LD_VX_K | .ldDtVx _ => .LD_DT_VX | .ldStVx _ => .LD_ST_VX | .addIVx _ => .ADD_I_VX
  | .ldFVx _ => .LD_F_VX | .ldBVx _ => .LD_B_VX | .ldMemVx _ => .LD_MEM_VX | .ldVxMem _ => .LD_VX_MEM

section

variable (op sub : BitVec 4) (x y : Reg) (n : Nibble) (kk : Byte) (nnn : Addr)

@[simp] theorem fieldNNN_formatA : fieldNNN (formatA op nnn) = nnn :=
  BitVec.extractLsb'_append_eq_right

@[simp] theorem fieldX_formatXK : fieldX (formatXK op x kk) = x :=
  (BitVec.extractLsb'_append_eq_of_le (by decide)).trans BitVec.extractLsb'_append_eq_right

@[simp] theorem fieldKK_formatXK : fieldKK (formatXK op x kk) = kk :=
  BitVec.extractLsb'_append_eq_right

@[simp] theorem fieldX_formatX : fieldX (formatX op x kk) = x := fieldX_formatXK op x kk

@[simp] theorem fieldX_formatZ : fieldX (formatZ n kk) = n := fieldX_formatXK 0x0#4 n kk

@[simp] theorem fieldX_formatXY : fieldX (formatXY op x y sub) = x :=
  (BitVec.extractLsb'_append_eq_of_le (by decide)).trans
    ((BitVec.extractLsb'_append_eq_of_le (by decide)).trans BitVec.extractLsb'_append_eq_right)

@[simp] theorem fieldY_formatXY : fieldY (formatXY op x y sub) = y :=
  (BitVec.extractLsb'_append_eq_of_le (by decide)).trans BitVec.extractLsb'_append_eq_right

@[simp] theorem fieldX_formatXYN : fieldX (formatXYN x y n) = x := fieldX_formatXY 0xD#4 n x y

@[simp] theorem fieldY_formatXYN : fieldY (formatXYN x y n) = y := fieldY_formatXY 0xD#4 n x y

@[simp] theorem fieldN_formatXYN : fieldN (formatXYN x y n) = n :=
  BitVec.extractLsb'_append_eq_right

end

/-- An instruction's word carries all of its operands. -/
theorem buildInstr_tagOf_encode (i : Instr) : buildInstr (tagOf i) (encode i) = i := by
  cases i <;> simp [tagOf, buildInstr, encode]

open Laws.FixedBits in
/-- An instruction's word carries the fixed bits of its row. -/
theorem encode_and_mask (i : Instr) : encode i &&& (row i).1 = (row i).2 := by
  cases i <;> simp only [encode, row, and_formatZ, and_formatA, and_formatXK, and_formatXY, and_formatXYN, and_formatX]
    <;> rfl

open Laws.FixedBits in
/-- Every word of an instruction's row is dispatched to the instruction's tag (R51). -/
theorem encoded_row_tagOf (i : Instr) : Encoded (row i).1 (row i).2 (buildInstr (tagOf i)) := by
  cases i
  case cls | ret | skp | sknp | ldVxDt | ldVxK | ldDtVx | ldStVx | addIVx | ldFVx | ldBVx | ldMemVx | ldVxMem =>
    exact encoded_of_mem_tier1 (by simp only [row, tagOf]; decide)
  case seReg | ldReg | orReg | andReg | xorReg | addReg | subReg | shr | subnReg | shl | sneReg =>
    exact encoded_of_mem_tier2 (by simp only [row, tagOf]; decide)
  case jp | call | seImm | sneImm | ldImm | addImm | ldI | jpV0 | rnd | drw =>
    exact encoded_of_mem_tier3 (by simp only [row, tagOf]; decide)

theorem decodeWord_encode (i : Instr) : decodeWord (encode i) = .ok i := by
  rw [encoded_row_tagOf i _ (encode_and_mask i), buildInstr_tagOf_encode]

theorem wordOfBytes_hiByte_loByte (w : Word) : wordOfBytes (hiByte w) (loByte w) = w :=
  (BitVec.extractLsb'_append_extractLsb'_eq_extractLsb' rfl).trans BitVec.extractLsb'_eq_self

theorem decode_encodeBytes_append (i : Instr) (rest : List Byte) : decode (encodeBytes i ++ rest) = .ok (i, rest) := by
  rw [encodeBytes, List.cons_append, List.cons_append, List.nil_append, decode, wordOfBytes_hiByte_loByte,
    decodeWord_encode]

/-! ## The unrecognized words (R54) -/

theorem lookupKey_eq_none_iff {table : List (Word × Tag)} {key : Word} :
    lookupKey table key = none ↔ ∀ row ∈ table, key ≠ row.1 := by
  induction table with
  | nil => simp [lookupKey]
  | cons row rest ih => rw [lookupKey, List.forall_mem_cons, ← ih]; split <;> simp [*]

theorem dispatch_eq_none_iff {w : Word} :
    dispatch w = none ↔ (∀ row ∈ tier1, w &&& tier1Mask ≠ row.1) ∧ (∀ row ∈ tier2, w &&& tier2Mask ≠ row.1) ∧
      ∀ row ∈ tier3, w &&& tier3Mask ≠ row.1 := by
  simp only [← lookupKey_eq_none_iff, dispatch]
  cases lookupKey tier1 (w &&& tier1Mask) <;> cases lookupKey tier2 (w &&& tier2Mask) <;> simp

theorem decodeWord_eq_unrecognized_iff {w : Word} : decodeWord w = .error (.unrecognized w) ↔ dispatch w = none := by
  rw [decodeWord]
  cases dispatch w <;> simp

/-- A tier's mask keeps the top nibble and one field: equality under the mask is equality of the two. -/
theorem and_tier1Mask_eq_iff {w key : Word} (hkey : key &&& tier1Mask = key) :
    w &&& tier1Mask = key ↔ w.extractLsb' 12 4 = key.extractLsb' 12 4 ∧ fieldKK w = fieldKK key := by
  have hmasked (v : Word) : v &&& tier1Mask = formatX (v.extractLsb' 12 4) 0#4 (fieldKK v) := by
    rw [← Laws.FixedBits.and_formatX _ (fieldX v), formatX, append_fieldX_append_fieldKK, tier1Mask]
  constructor
  · exact fun hw => ⟨extractLsb'_eq_of_and_eq hw rfl, extractLsb'_eq_of_and_eq hw rfl⟩
  · rintro ⟨htop, hlow⟩
    rw [← hkey, hmasked, hmasked, htop, hlow]

theorem and_tier2Mask_eq_iff {w key : Word} (hkey : key &&& tier2Mask = key) :
    w &&& tier2Mask = key ↔ w.extractLsb' 12 4 = key.extractLsb' 12 4 ∧ fieldN w = fieldN key := by
  have hmasked (v : Word) : v &&& tier2Mask = formatXY (v.extractLsb' 12 4) 0#4 0#4 (fieldN v) := by
    rw [← Laws.FixedBits.and_formatXY _ (fieldX v) (fieldY v), formatXY, append_fieldX_append_fieldY_append_fieldN,
      tier2Mask]
  constructor
  · exact fun hw => ⟨extractLsb'_eq_of_and_eq hw rfl, extractLsb'_eq_of_and_eq hw rfl⟩
  · rintro ⟨htop, hn⟩
    rw [← hkey, hmasked, hmasked, htop, hn]

theorem and_tier3Mask_eq_iff {w key : Word} (hkey : key &&& tier3Mask = key) :
    w &&& tier3Mask = key ↔ w.extractLsb' 12 4 = key.extractLsb' 12 4 := by
  have hmasked (v : Word) : v &&& tier3Mask = formatA (v.extractLsb' 12 4) 0#12 := by
    rw [← Laws.FixedBits.and_formatA _ (fieldNNN v), formatA, append_fieldNNN, tier3Mask]
  constructor
  · exact fun hw => extractLsb'_eq_of_and_eq hw rfl
  · intro htop
    rw [← hkey, hmasked, hmasked, htop]

/-- A word matches no tier, in terms of its fields. -/
theorem dispatch_eq_none_iff_fields {w : Word} : dispatch w = none ↔
    (∀ row ∈ tier1, ¬(w.extractLsb' 12 4 = row.1.extractLsb' 12 4 ∧ fieldKK w = fieldKK row.1)) ∧
    (∀ row ∈ tier2, ¬(w.extractLsb' 12 4 = row.1.extractLsb' 12 4 ∧ fieldN w = fieldN row.1)) ∧
    ∀ row ∈ tier3, w.extractLsb' 12 4 ≠ row.1.extractLsb' 12 4 := by
  have h₁ : ∀ row ∈ tier1, row.1 &&& tier1Mask = row.1 := by decide
  have h₂ : ∀ row ∈ tier2, row.1 &&& tier2Mask = row.1 := by decide
  have h₃ : ∀ row ∈ tier3, row.1 &&& tier3Mask = row.1 := by decide
  rw [dispatch_eq_none_iff]
  exact and_congr (forall₂_congr fun row hrow => not_congr (and_tier1Mask_eq_iff (h₁ row hrow)))
    (and_congr (forall₂_congr fun row hrow => not_congr (and_tier2Mask_eq_iff (h₂ row hrow)))
      (forall₂_congr fun row hrow => not_congr (and_tier3Mask_eq_iff (h₃ row hrow))))

/-! ## The debug lookup (R57) -/

section

variable {mask key : Word} {tag : Tag}

theorem nameOf_of_encoded (h : Encoded mask key (buildInstr tag)) {w : Word} (hw : w &&& mask = key) :
    nameOf w = (buildInstr tag w).toAsm.mnemonic.text := by
  rw [nameOf, h w hw]

theorem nameOf_of_mem_tier1 (h : (key, tag) ∈ tier1) {w : Word} (hw : w &&& tier1Mask = key) :
    nameOf w = (buildInstr tag w).toAsm.mnemonic.text := nameOf_of_encoded (encoded_of_mem_tier1 h) hw

theorem nameOf_of_mem_tier2 (h : (key, tag) ∈ tier2) {w : Word} (hw : w &&& tier2Mask = key) :
    nameOf w = (buildInstr tag w).toAsm.mnemonic.text := nameOf_of_encoded (encoded_of_mem_tier2 h) hw

theorem nameOf_of_mem_tier3 (h : (key, tag) ∈ tier3) {w : Word} (hw : w &&& tier3Mask = key) :
    nameOf w = (buildInstr tag w).toAsm.mnemonic.text := nameOf_of_encoded (encoded_of_mem_tier3 h) hw

end

theorem nameOf_of_error {w : Word} {e : DecodeError} (h : decodeWord w = .error e) : nameOf w = "UNKNOWN" := by
  rw [nameOf, h]

/-! ## The assembler (R56) -/

theorem assemble_of_toInstr {l : AsmLine} {i : Instr} (h : l.toInstr = some i) : l.assemble = some (encode i) := by
  rw [AsmLine.assemble, h, Option.map_some]

end Sys2Proof

namespace Sys2Proof.Claims

open Sys2Proof

/-- Settles O3: every row of the encoder carries its fixed bits, and the decoder reads the operands back. -/
theorem decodingAnEncodedInstructionGivesItBack : Obligations.DecodingAnEncodedInstructionGivesItBack :=
  fun i rest => ⟨decodeWord_encode i, decode_encodeBytes_append i rest⟩

/-- Settles O4: by the row that the word was found in. -/
theorem encodingADecodedWordGivesItBack : Obligations.EncodingADecodedWordGivesItBack :=
  fun _ _ h => encode_of_decodeWord h

/-- Settles O1: by running the decoder. -/
theorem writtenWordsDecode : Obligations.WrittenWordsDecode :=
  ⟨rfl, rfl, rfl, rfl, rfl, rfl, rfl, rfl, rfl, rfl, rfl, rfl, rfl, rfl, rfl, rfl⟩

/-- Settles O2: no key of the tables has the word's top nibble and low field; the top nibble decides which of them. -/
theorem unrecognizedWordsAreExactlyTheListedOnes : Obligations.UnrecognizedWordsAreExactlyTheListedOnes := by
  intro w
  rw [decodeWord_eq_unrecognized_iff, dispatch_eq_none_iff_fields]
  simp only [tier1, tier2, tier3, List.forall_mem_cons, List.not_mem_nil, false_imp_iff, implies_true, and_true,
    fieldKK, fieldN]
  generalize w.extractLsb' 12 4 = top, w.extractLsb' 0 8 = low, w.extractLsb' 0 4 = n
  by_cases htop : top = 0x8#4
  · have hrest : (n ≠ 0x0#4 ∧ n ≠ 0x1#4 ∧ n ≠ 0x2#4 ∧ n ≠ 0x3#4 ∧ n ≠ 0x4#4 ∧ n ≠ 0x5#4 ∧ n ≠ 0x6#4 ∧ n ≠ 0x7#4 ∧
        n ≠ 0xE#4) ↔ (n = 0x8#4 ∨ n = 0x9#4 ∨ n = 0xA#4 ∨ n = 0xB#4 ∨ n = 0xC#4 ∨ n = 0xD#4 ∨ n = 0xF#4) := by
      revert n
      decide
    simpa [htop] using hrest
  · revert htop
    obtain ⟨top⟩ := top
    fin_cases top <;> simp

/-- Settles O5: a line is assembled to the word of its instruction, which is `plain` for an instruction as it is
written. -/
theorem assembledLinesDecodeToWhatTheyStandFor : Obligations.AssembledLinesDecodeToWhatTheyStandFor := by
  refine ⟨fun l i h => ⟨_, assemble_of_toInstr h, decodeWord_encode i⟩, fun i => ?_⟩
  refine ⟨_, assemble_of_toInstr (Laws.WellFormedness.toInstr_toAsm i), ?_⟩
  cases i
  case cls x => exact .inr (.inl ⟨rfl, x, rfl⟩)
  case ret x => exact .inr (.inr ⟨rfl, x, rfl⟩)
  all_goals exact .inl rfl

/-- Settles O6: the row's tag has the row's mnemonic, whatever the operands are. -/
theorem nameLookupGivesTheMnemonic : Obligations.NameLookupGivesTheMnemonic := by
  intro w
  have name₁ {key tag} (h : (key, tag) ∈ tier1) := nameOf_of_mem_tier1 h (w := w)
  have name₂ {key tag} (h : (key, tag) ∈ tier2) := nameOf_of_mem_tier2 h (w := w)
  have name₃ {key tag} (h : (key, tag) ∈ tier3) := nameOf_of_mem_tier3 h (w := w)
  refine ⟨name₁ (tag := .CLS) (by decide), name₁ (tag := .RET) (by decide), name₃ (tag := .JP) (by decide),
    name₃ (tag := .CALL) (by decide), name₃ (tag := .SE_IMM) (by decide), name₃ (tag := .SNE_IMM) (by decide),
    name₂ (tag := .SE_REG) (by decide), name₃ (tag := .LD_IMM) (by decide), name₃ (tag := .ADD_IMM) (by decide),
    name₂ (tag := .LD_REG) (by decide), name₂ (tag := .OR) (by decide), name₂ (tag := .AND) (by decide),
    name₂ (tag := .XOR) (by decide), name₂ (tag := .ADD_REG) (by decide), name₂ (tag := .SUB) (by decide),
    name₂ (tag := .SHR) (by decide), name₂ (tag := .SUBN) (by decide), name₂ (tag := .SHL) (by decide),
    name₂ (tag := .SNE_REG) (by decide), name₃ (tag := .LD_I) (by decide), name₃ (tag := .JP_V0) (by decide),
    name₃ (tag := .RND) (by decide), name₃ (tag := .DRW) (by decide), name₁ (tag := .SKP) (by decide),
    name₁ (tag := .SKNP) (by decide), ?loads, name₁ (tag := .ADD_I_VX) (by decide), nameOf_of_error⟩
  case loads =>
    simp only [List.forall_mem_cons, List.not_mem_nil, false_imp_iff, implies_true, and_true]
    exact ⟨name₁ (tag := .LD_VX_DT) (by decide), name₁ (tag := .LD_VX_K) (by decide),
      name₁ (tag := .LD_DT_VX) (by decide), name₁ (tag := .LD_ST_VX) (by decide),
      name₁ (tag := .LD_F_VX) (by decide), name₁ (tag := .LD_B_VX) (by decide),
      name₁ (tag := .LD_MEM_VX) (by decide), name₁ (tag := .LD_VX_MEM) (by decide)⟩

end Sys2Proof.Claims
end

section
/-! SUPPORT. What a step may write (spec/10_state.md R13, R15, R16): the fields that an instruction changes, said once
for all of them, and then for the step that runs it. -/

namespace Sys2Proof.Machine

open Sys2Proof Sys2Proof.Claims

/-! ## What a result answers -/

/-- Every next state that the result answers has the property. -/
def Answers (P : State → Prop) (r : Result) : Prop :=
  ∀ t, r = .next t → P t

section

variable {P : State → Prop} {s t : State}

theorem answers_next (h : P t) : Answers P (.next t) := by
  rintro _ ⟨⟩
  exact h

theorem answers_ite {r r' : Result} (p : Prop) [Decidable p] (hr : Answers P r) (hr' : Answers P r') :
    Answers P (if p then r else r') := by
  split
  · exact hr
  · exact hr'

theorem answers_raise {code : FaultCode} {info : Nat} {i : Instr} (h : P (afterFault s code info (encode i))) :
    Answers P (raise code info i s) := answers_next h

theorem answers_skipIf {c : Bool} (hstay : P s) (hskip : P s.advance) : Answers P (skipIf c s) := by
  cases c
  · exact answers_next hstay
  · exact answers_next hskip

theorem answers_skipOnKey {x : Reg} {held : Bool} {i : Instr}
    (hfault : P (afterFault s .keyIndexOutOfRange (s.reg x).toNat (encode i))) (hstay : P s) (hskip : P s.advance) :
    Answers P (skipOnKey x held i s) :=
  answers_ite _ (answers_raise hfault) (answers_skipIf hstay hskip)

theorem answers_withRange {b c : Nat} {i : Instr} (hfault : P (afterFault s .dataOutOfRange (max b 0x1000) (encode i)))
    (hrun : c = 0 ∨ b + c ≤ 0x1000 → P t) : Answers P (withRange b c i s t) := by
  rcases withRange_cases b c i s t with ⟨heq, hle⟩ | ⟨heq, _⟩ <;> rw [heq]
  · exact answers_next (hrun hle)
  · exact answers_raise hfault

end

/-! ## The fields that an instruction changes -/

/-- `t` differs from `s` only where R13's column 'writable by', and R15 and R16 for the registers, let the instruction
write that `decoded` holds; nowhere, when it holds none. A field that is not given is unchanged. -/
structure WritesWithin (decoded : Except DecodeError Instr) (s t : State) : Prop where
  key : t.key = s.key := by rfl
  regs : ∀ r, t.reg r ≠ s.reg r → ∃ i, decoded = .ok i ∧ mayWrite i r = true := by exact fun _ h => absurd rfl h
  index : t.index ≠ s.index → (∃ nnn, decoded = .ok (.ldI nnn)) ∨ (∃ x, decoded = .ok (.addIVx x)) ∨
    ∃ x, decoded = .ok (.ldFVx x) := by exact fun h => absurd rfl h
  stack : t.stack ≠ s.stack → ∃ nnn, decoded = .ok (.call nnn) := by exact fun h => absurd rfl h
  sp : t.sp ≠ s.sp → (∃ nnn, decoded = .ok (.call nnn)) ∨ ∃ x, decoded = .ok (.ret x) := by exact fun h => absurd rfl h
  disp : t.disp ≠ s.disp → (∃ x, decoded = .ok (.cls x)) ∨ ∃ x y n, decoded = .ok (.drw x y n) := by
    exact fun h => absurd rfl h
  mem : t.mem ≠ s.mem → (∃ x, decoded = .ok (.ldBVx x)) ∨ ∃ x, decoded = .ok (.ldMemVx x) := by
    exact fun h => absurd rfl h

section

variable {i : Instr} {s t : State} {x : Reg} {decoded : Except DecodeError Instr}

theorem writesWithin_setReg {b : Byte} (h : mayWrite i x = true) : WritesWithin (.ok i) s (s.setReg x b) where
  regs := by
    intro r hr
    by_cases hx : r = x
    · exact ⟨i, rfl, hx ▸ h⟩
    · exact absurd (s.reg_setReg_of_ne b hx) hr

theorem writesWithin_writeFlagged {flag result : Byte} (h : mayWrite i x = true) (hvf : mayWrite i vf = true) :
    WritesWithin (.ok i) s (s.writeFlagged x flag result) where
  regs := by
    intro r hr
    rw [State.reg_writeFlagged] at hr
    split at hr
    case isTrue hx => exact ⟨i, rfl, hx ▸ h⟩
    case isFalse =>
      split at hr
      case isTrue hx => exact ⟨i, rfl, hx ▸ hvf⟩
      case isFalse => exact absurd rfl hr

theorem writesWithin_loadRegs (s : State) (x : Reg) (m : Memory) (a : Nat) :
    WritesWithin (.ok (.ldVxMem x)) s (s.loadRegs 0 (m.readBytes a (x.toNat + 1))) := by
  have hregs (r : Reg) (hr : (s.loadRegs 0 (m.readBytes a (x.toNat + 1))).reg r ≠ s.reg r) : r.toNat ≤ x.toNat := by
    by_contra hgt
    rw [State.reg_loadRegs_readBytes, if_neg hgt] at hr
    exact hr rfl
  rw [State.loadRegs_frame]
  exact { regs := fun r hr => ⟨_, rfl, decide_eq_true (hregs r hr)⟩ }

/-- No instruction writes a field that R13, R15 and R16 do not let it write. -/
theorem writesWithin_exec (i : Instr) (s : State) : Answers (WritesWithin (.ok i) s) (exec i s) := by
  cases i
  case cls x => exact answers_next { disp := fun _ => .inl ⟨x, rfl⟩ }
  case ret x => exact answers_ite _ (answers_raise {}) (answers_next { sp := fun _ => .inr ⟨x, rfl⟩ })
  case call nnn =>
    exact answers_ite _ (answers_raise {})
      (answers_next { stack := fun _ => ⟨nnn, rfl⟩, sp := fun _ => .inl ⟨nnn, rfl⟩ })
  case jp | jpV0 | ldDtVx | ldStVx => exact answers_next {}
  case seImm | sneImm | seReg | sneReg => exact answers_skipIf {} {}
  case skp | sknp => exact answers_skipOnKey {} {} {}
  case ldImm x _ | addImm x _ | ldReg x _ | orReg x _ | andReg x _ | xorReg x _ | ldVxDt x =>
    exact answers_next (writesWithin_setReg (beq_self_eq_true x))
  case addReg x _ | subReg x _ | shr x _ | subnReg x _ | shl x _ =>
    exact answers_next (writesWithin_writeFlagged (by simp [mayWrite]) (by simp [mayWrite]))
  case rnd x kk =>
    have hset : WritesWithin (.ok (.rnd x kk)) s (s.setReg x (s.randByte &&& kk)) :=
      writesWithin_setReg (beq_self_eq_true x)
    exact answers_next { hset with }
  case ldVxK x =>
    cases hkey : highestHeld s.key 16 with
    | none =>
      rw [exec_ldVxK_of_none x hkey]
      exact answers_next {}
    | some k =>
      rw [exec_ldVxK_of_some x hkey]
      exact answers_next (writesWithin_setReg (beq_self_eq_true x))
  case ldI nnn => exact answers_next { index := fun _ => .inl ⟨nnn, rfl⟩ }
  case addIVx x => exact answers_next { index := fun _ => .inr (.inl ⟨x, rfl⟩) }
  case ldFVx x => exact answers_next { index := fun _ => .inr (.inr ⟨x, rfl⟩) }
  case drw x y n =>
    have hflag : WritesWithin (.ok (.drw x y n)) s (s.setReg vf (collisionFlag (s.drawn x y n).2)) :=
      writesWithin_setReg rfl
    exact answers_withRange {} fun _ => { hflag with disp := fun _ => .inr ⟨x, y, n, rfl⟩ }
  case ldBVx x => exact answers_withRange {} fun _ => { mem := fun _ => .inl ⟨x, rfl⟩ }
  case ldMemVx x => exact answers_withRange {} fun _ => { mem := fun _ => .inr ⟨x, rfl⟩ }
  case ldVxMem x => exact answers_withRange {} fun _ => writesWithin_loadRegs s x _ _

end

/-! ## The fields that a step changes -/

section

variable {i : Instr} {s t u : State}

/-- R66: the step that runs an instruction which leaves no fault, ready for the instruction's own effect. -/
theorem step_of_effect (h : CanFetch s) (hi : decodeWord (wordAtPc s) = .ok i)
    (hu : exec i s.advance.clearReport = .next u) (hkept : u.fault = s.fault) : step s = .next u.countdown := by
  rw [step_of_decodes h hi, hu, finishCycle_next_of_noFault (hkept ▸ h.1)]

/-- The four ends of a step: nothing while halted, a fault, the report of an unrecognized word, or an instruction's
effect. -/
theorem step_ends (s : State) :
    (s.fault.code ≠ .noFault ∧ step s = .next s) ∨
    (∃ code info, cycleFault s = some (code, info) ∧
      step s = .next (s.takeFault code (BitVec.ofNat 17 info) s.pc (faultOpcode s code))) ∨
    (∃ e, CanFetch s ∧ decodeWord (wordAtPc s) = .error e ∧
      step s = .next (s.advance.reportUnrecognized (wordAtPc s) s.pc).countdown) ∨
    ∃ i u, CanFetch s ∧ decodeWord (wordAtPc s) = .ok i ∧ exec i s.advance.clearReport = .next u ∧
      u.fault = s.fault ∧ step s = .next u.countdown := by
  by_cases hs : s.fault.code = .noFault
  · cases hf : cycleFault s with
    | some cause => exact .inr (.inl ⟨_, _, rfl, step_of_cycleFault_eq_some hs hf⟩)
    | none =>
      have hpc : s.pc.toNat ≤ 0x0FFE := by
        by_contra hgt
        cases (cycleFault_of_pc_gt (Nat.not_le.mp hgt)).symm.trans hf
      rcases step_of_cycleFault_eq_none hs hf with ⟨e, hend⟩ | ⟨i, u, hend⟩
      · exact .inr (.inr (.inl ⟨e, ⟨hs, hpc⟩, hend⟩))
      · exact .inr (.inr (.inr ⟨i, u, ⟨hs, hpc⟩, hend⟩))
  · exact .inl ⟨hs, step_of_fault hs⟩

theorem step_answers (s : State) : ∃ t, step s = .next t := by
  rcases step_ends s with ⟨_, h⟩ | ⟨_, _, _, h⟩ | ⟨_, _, _, h⟩ | ⟨_, _, _, _, _, _, h⟩ <;> exact ⟨_, h⟩

/-- A step changes only what the instruction that it runs may write. -/
theorem writesWithin_step (h : step s = .next t) : WritesWithin (decodeWord (wordAtPc s)) s t := by
  rcases step_ends s with ⟨_, hstep⟩ | ⟨_, _, _, hstep⟩ | ⟨_, _, _, hstep⟩ | ⟨i, u, _, hi, hu, _, hstep⟩ <;>
    cases h.symm.trans hstep
  · exact {}
  · exact {}
  · exact {}
  · have hw := writesWithin_exec i _ u hu
    exact hi ▸ ⟨hw.key, hw.regs, hw.index, hw.stack, hw.sp, hw.disp, hw.mem⟩

end

end Sys2Proof.Machine

namespace Sys2Proof.Claims

open Sys2Proof Sys2Proof.Machine

/-- Settles O13: by the ways that a step ends. -/
theorem everyStepAnswersANextState : Obligations.EveryStepAnswersANextState := step_answers

/-- Settles O15: the registers of `WritesWithin`. -/
theorem onlyTheListedInstructionsWriteRegisters : Obligations.OnlyTheListedInstructionsWriteRegisters :=
  fun _ _ r h => (writesWithin_step h).regs r

/-- Settles O16: the other fields of `WritesWithin`. -/
theorem stateIsWrittenOnlyByItsWriters : Obligations.StateIsWrittenOnlyByItsWriters := by
  intro s t h
  have hw := writesWithin_step h
  exact ⟨hw.key, hw.index, hw.stack, hw.sp, hw.disp, hw.mem⟩

/-- Settles O17: the jump's target, or the rewind, takes back the fetch advance. -/
theorem spinningChangesOnlyTimersAndReport : Obligations.SpinningChangesOnlyTimersAndReport := by
  intro s hs
  refine ⟨fun nnn hi hnnn => ?jump, fun x hi hkey => ?wait⟩
  case jump =>
    have hpc : addrWord nnn = s.pc := BitVec.eq_of_toNat_eq ((toNat_addrWord nnn).trans hnnn)
    rw [step_of_effect hs hi rfl rfl, hpc]
    rfl
  case wait =>
    have hnone : highestHeld s.key 16 = none :=
      highestHeld_eq_none_of_none_held fun k => by rw [hkey]; exact BitVec.getElem_zero k.isLt
    have hpc : s.advance.clearReport.pc - 2#16 = s.pc := BitVec.add_sub_cancel s.pc 2#16
    rw [step_of_effect hs hi (exec_ldVxK_of_none x hnone) rfl, State.rewind, hpc]
    rfl

end Sys2Proof.Claims
end

section
/-! SUPPORT. The invariant of the machine (Sys2Proof/Safety.lean): what an instruction's effect does to memory's
canonical form and to the bounds of R20, the state that each end of a step leaves, and the host's moves. -/

namespace Sys2Proof

/-- A word is unrecognized for one reason only (R50). -/
theorem decodeWord_eq_unrecognized_of_error {w : Word} {e : DecodeError} (h : decodeWord w = .error e) :
    decodeWord w = .error (.unrecognized w) := by
  rw [decodeWord] at h ⊢
  split at h
  · cases h
  · rfl

/-- A skip on a key has its register in the word's field `x` (R48). -/
theorem fieldX_of_decodeWord_skip {w : Word} {x : Reg} (h : decodeWord w = .ok (.skp x) ∨ decodeWord w = .ok (.sknp x)) :
    fieldX w = x := by
  rcases h with h | h
  · rw [← encode_of_decodeWord h, encode, fieldX_formatX]
  · rw [← encode_of_decodeWord h, encode, fieldX_formatX]

end Sys2Proof

namespace Sys2Proof.Machine

open Sys2Proof Sys2Proof.Claims

/-! ## Memory (log entry 6) -/

section

variable {lo a : Nat} {cell other : Host.Cell} {rest others n : Memory}

theorem Memory.wfFrom_cons_iff : Memory.wfFrom lo (cell :: rest) = true ↔
    lo ≤ cell.1 ∧ cell.1 < 4096 ∧ cell.2 ≠ Memory.unlisted cell.1 ∧ Memory.wfFrom (cell.1 + 1) rest = true := by
  simp only [Memory.wfFrom, Bool.and_eq_true, decide_eq_true_eq, and_assoc]

theorem Memory.read_cons_self (cell : Host.Cell) (rest : Memory) : Memory.read (cell :: rest) cell.1 = cell.2 :=
  if_pos rfl

theorem Memory.read_cons_of_gt (h : cell.1 < a) : Memory.read (cell :: rest) a = Memory.read rest a :=
  if_neg (Nat.ne_of_lt h)

/-- A memory that reads as a canonical one does at that one's lowest cell has a cell there or below. -/
theorem Memory.exists_cell_le (hm : Memory.wfFrom lo (cell :: rest) = true) (hn : Memory.wfFrom lo n = true)
    (hread : Memory.read (cell :: rest) cell.1 = n.read cell.1) :
    ∃ other others, n = other :: others ∧ other.1 ≤ cell.1 := by
  obtain ⟨_, _, hlisted, _⟩ := Memory.wfFrom_cons_iff.mp hm
  rw [Memory.read_cons_self] at hread
  cases n with
  | nil => exact absurd hread hlisted
  | cons other others =>
    obtain ⟨_, hlt, hbyte, hothers⟩ := Memory.wfFrom_cons_iff.mp hn
    refine ⟨other, others, rfl, Nat.not_lt.mp fun hbelow => hlisted ?_⟩
    have hfrom : Memory.wfFrom other.1 (other :: others) = true :=
      Memory.wfFrom_cons_iff.mpr ⟨Nat.le_refl _, hlt, hbyte, hothers⟩
    rw [hread, Memory.read_below _ _ _ hfrom hbelow]

/-- Canonical memories that read alike have the same lowest cell. -/
theorem Memory.head_eq (hm : Memory.wfFrom lo (cell :: rest) = true) (hn : Memory.wfFrom lo (other :: others) = true)
    (hread : ∀ a, a < 4096 → Memory.read (cell :: rest) a = Memory.read (other :: others) a) : cell = other := by
  obtain ⟨_, hcell, _⟩ := Memory.wfFrom_cons_iff.mp hm
  obtain ⟨_, hother, _⟩ := Memory.wfFrom_cons_iff.mp hn
  obtain ⟨_, _, heq, hle⟩ := Memory.exists_cell_le hm hn (hread _ hcell)
  cases heq
  obtain ⟨_, _, heq, hge⟩ := Memory.exists_cell_le hn hm (hread _ hother).symm
  cases heq
  have haddr : cell.1 = other.1 := Nat.le_antisymm hge hle
  refine Prod.ext haddr ?_
  calc cell.2
      = Memory.read (cell :: rest) cell.1 := (Memory.read_cons_self cell rest).symm
    _ = Memory.read (other :: others) other.1 := haddr ▸ hread _ hcell
    _ = other.2 := Memory.read_cons_self other others

/-- Behind the same lowest cell, they read alike too. -/
theorem Memory.read_tail_eq (hm : Memory.wfFrom lo (cell :: rest) = true)
    (hn : Memory.wfFrom lo (cell :: others) = true)
    (hread : Memory.read (cell :: rest) a = Memory.read (cell :: others) a) :
    Memory.read rest a = Memory.read others a := by
  obtain ⟨_, _, _, hrest⟩ := Memory.wfFrom_cons_iff.mp hm
  obtain ⟨_, _, _, hothers⟩ := Memory.wfFrom_cons_iff.mp hn
  rcases Nat.lt_or_ge cell.1 a with hgt | hle
  · rwa [Memory.read_cons_of_gt hgt, Memory.read_cons_of_gt hgt] at hread
  · rw [Memory.read_below rest _ a hrest (by omega), Memory.read_below others _ a hothers (by omega)]

/-- The canonical form holds nothing but what the memory reads as. -/
theorem Memory.eq_of_read_eq {m : Memory} (hm : Memory.wfFrom lo m = true) (hn : Memory.wfFrom lo n = true)
    (hread : ∀ a, a < 4096 → m.read a = n.read a) : m = n := by
  induction m generalizing lo n with
  | nil =>
    cases n with
    | nil => rfl
    | cons other others =>
      obtain ⟨_, hlt, _⟩ := Memory.wfFrom_cons_iff.mp hn
      obtain ⟨_, _, hnil, _⟩ := Memory.exists_cell_le hn hm (hread _ hlt).symm
      cases hnil
  | cons cell rest ih =>
    obtain ⟨_, hlt, _, hrest⟩ := Memory.wfFrom_cons_iff.mp hm
    obtain ⟨other, others, rfl, _⟩ := Memory.exists_cell_le hm hn (hread _ hlt)
    obtain rfl : cell = other := Memory.head_eq hm hn hread
    obtain ⟨_, _, _, hothers⟩ := Memory.wfFrom_cons_iff.mp hn
    rw [ih hrest hothers fun a ha => Memory.read_tail_eq hm hn (hread a ha)]

end

/-- The 80 bytes of `FONT_ROM` lie inside memory. -/
theorem State.memoryOk_powerOn (font : Vector Byte 80) : (State.powerOn font).MemoryOk :=
  Memory.wf_writeBytes _ [] 0x050 rfl (by rw [Vector.length_toList]; decide)

/-- The default `FONT_ROM` is what the font area reads as when nothing is written there. -/
theorem State.powerOn_mem_of_defaultFont {font : Vector Byte 80} (h : font.toList = defaultFont) :
    (State.powerOn font).mem = [] := by
  refine Memory.eq_of_read_eq (State.memoryOk_powerOn font) rfl fun a _ => ?_
  change _ = Memory.unlisted a
  by_cases ha : 0x050 ≤ a ∧ a < 0x0A0
  · have hfont := State.read_powerOn_font font ⟨a - 0x050, by omega⟩
    rw [Nat.add_sub_cancel' ha.1] at hfont
    have hlen : a - 0x050 < font.toList.length := by
      rw [Vector.length_toList]
      omega
    rw [hfont, Memory.unlisted, if_pos ha, ← h, List.getD_eq_getElem _ _ hlen, Vector.getElem_toList]
    rfl
  · rw [Memory.unlisted_of_outside_font (by omega), State.read_powerOn_of_outside_font font (by omega)]

/-! ## The effect of an instruction -/

section

variable {i : Instr} {s t u : State}

/-- The checked writes of `Fx33` and `Fx55` stay inside memory (R41). -/
theorem memoryOk_exec (i : Instr) (h : s.MemoryOk) : Answers State.MemoryOk (exec i s) := by
  intro t ht
  by_cases hmem : t.mem = s.mem
  · rwa [State.MemoryOk, hmem]
  · rcases (writesWithin_exec i s t ht).mem hmem with ⟨x, hx⟩ | ⟨x, hx⟩ <;> cases hx
    · refine answers_withRange (by exact h) (fun hle => ?_) t ht
      exact Memory.wf_writeBytes _ _ _ h (by rw [length_bcdDigits]; omega)
    · refine answers_withRange (by exact h) (fun hle => ?_) t ht
      exact Memory.wf_writeBytes _ _ _ h (by rw [s.length_firstRegs]; omega)

/-- The half of `PcBounded` that is about the stack (R20). -/
abbrev State.StackBounded (s : State) : Prop := ∀ k : Fin 16, s.stack[k].toNat ≤ 0x1000

/-- R20: only a call writes an entry, the advanced `pc`. -/
theorem stackBounded_exec (i : Instr) (hpc : s.pc.toNat ≤ 0x1000) (h : s.StackBounded) :
    Answers State.StackBounded (exec i s) := by
  intro t ht
  by_cases hstack : t.stack = s.stack
  · rwa [State.StackBounded, hstack]
  · obtain ⟨nnn, hnnn⟩ := (writesWithin_exec i s t ht).stack hstack
    cases hnnn
    refine answers_ite _ (answers_raise ?_) (answers_next ?_) t ht
    · exact h
    · intro k
      simp only [State.setPc_stack, State.push_stack, Fin.getElem_fin, Vector.getElem_setIfInBounds]
      split
      · exact hpc
      · exact h k

/-- R20: the highest target is that of `Bnnn`. -/
theorem pc_le_exec (i : Instr) (hlo : 2 ≤ s.pc.toNat) (hhi : s.pc.toNat ≤ 0x1000)
    (hstack : s.StackBounded) : Answers (fun t => t.pc.toNat ≤ 0x10FE) (exec i s) := by
  have hstay : s.pc.toNat ≤ 0x10FE := by omega
  have hback : (s.pc - 2#16).toNat ≤ 0x10FE := by bv_omega
  have hskip : (s.pc + 2#16).toNat ≤ 0x10FE := by bv_omega
  cases i
  case ret x =>
    have htop : s.topOfStack.toNat ≤ 0x1000 := hstack ⟨s.sp.val - 1, by omega⟩
    exact answers_ite _ (answers_raise hback) (answers_next (Nat.le_trans htop (by decide)))
  case jp nnn =>
    have hnnn := nnn.isLt
    exact answers_next ((toNat_addrWord nnn).trans_le (by omega))
  case call nnn =>
    have hnnn := nnn.isLt
    exact answers_ite _ (answers_raise hback) (answers_next ((toNat_addrWord nnn).trans_le (by omega)))
  case jpV0 nnn =>
    have hnnn := nnn.isLt
    have hv0 := (s.reg 0x0#4).isLt
    exact answers_next ((toNat_offsetTarget (s.reg 0x0#4) nnn).trans_le (by omega))
  case seImm | sneImm | seReg | sneReg => exact answers_skipIf hstay hskip
  case skp | sknp => exact answers_skipOnKey hback hstay hskip
  case ldVxK x =>
    cases hkey : highestHeld s.key 16 with
    | none =>
      rw [exec_ldVxK_of_none x hkey]
      exact answers_next hback
    | some k =>
      rw [exec_ldVxK_of_some x hkey]
      exact answers_next hstay
  case drw | ldBVx | ldMemVx => exact answers_withRange hback fun _ => hstay
  case ldVxMem x => exact answers_withRange hback fun _ => by rw [State.loadRegs_frame]; exact hstay
  all_goals exact answers_next hstay

/-- The report that the fetch phase clears stays clear, whether or not a fault is raised (R29). -/
theorem report_eq_clear_of_exec (hs : s.report = .clear) (h : exec i s = .next t) : t.report = .clear := by
  rcases exec_cases h with ⟨_, _, hreport, _⟩ | ⟨_, _, _, rfl⟩
  · exact hreport.trans hs
  · rfl

/-! ## The invariant, end by end -/

theorem State.recordOk_of_clear (h : s.fault = .clear) : s.RecordOk := by
  simp [State.RecordOk, h, FaultRecord.clear]

theorem State.inv_of_clear (hmem : s.MemoryOk) (hfault : s.fault = .clear) (hreport : s.report = .clear)
    (hpc : s.PcBounded) : s.Inv :=
  ⟨hmem, State.recordOk_of_clear hfault, by simp [State.ReportOk, hreport, UnrecReport.clear], hpc⟩

/-- The record that a fault enters names its cause, in a state that the fault leaves as it was (R107, R110). -/
theorem State.recordOk_takeFault {code : FaultCode} {info : Nat} (hf : cycleFault s = some (code, info)) :
    (s.takeFault code (BitVec.ofNat 17 info) s.pc (faultOpcode s code)).RecordOk := by
  have hinfo : (BitVec.ofNat 17 info).toNat = info := Nat.mod_eq_of_lt (cycleFault_info_lt hf)
  refine ⟨fun hno => ?none, fun _ => ⟨rfl, rfl⟩, fun hc => ?fetch, fun _ hc => ?other, fun hc => ?data,
    fun hc => ?overflow, fun hc => ?underflow, fun hc => ?key⟩
  case none => exact absurd hno (cycleFault_code_ne_noFault hf)
  case fetch =>
    cases hc
    obtain ⟨hpc, rfl⟩ := cycleFault_eq_fetchOutOfRange_iff.mp hf
    exact ⟨hpc, rfl, hinfo⟩
  case other =>
    obtain ⟨hpc, _⟩ := (cycleFault_eq_some_iff_of_ne hc).mp hf
    exact ⟨hpc, if_neg hc⟩
  case data =>
    cases hc
    exact hinfo.trans (cycleFault_eq_dataOutOfRange_iff.mp hf).2
  case overflow =>
    cases hc
    obtain ⟨⟨_, hsp, _⟩, rfl⟩ := cycleFault_eq_stackOverflow_iff.mp hf
    exact ⟨rfl, hsp⟩
  case underflow =>
    cases hc
    obtain ⟨⟨_, hsp, _⟩, rfl⟩ := cycleFault_eq_stackUnderflow_iff.mp hf
    exact ⟨rfl, hsp⟩
  case key =>
    cases hc
    obtain ⟨_, x, hx, rfl, hgt⟩ := cycleFault_eq_keyIndexOutOfRange_iff.mp hf
    refine ⟨hgt.trans_eq hinfo.symm, hinfo.trans ?_⟩
    rw [← fieldX_of_decodeWord_skip hx]
    rfl

theorem State.inv_takeFault {code : FaultCode} {info : Nat} (h : s.Inv) (hf : cycleFault s = some (code, info)) :
    (s.takeFault code (BitVec.ofNat 17 info) s.pc (faultOpcode s code)).Inv := by
  obtain ⟨hmem, _, _, hbounded⟩ := h
  exact ⟨hmem, State.recordOk_takeFault hf, ⟨fun _ => rfl, nofun⟩, hbounded⟩

/-- R67: the report names the word at the address that the cycle fetched from. -/
theorem State.inv_reportUnrecognized {e : DecodeError} (h : s.Inv) (hs : CanFetch s)
    (he : decodeWord (wordAtPc s) = .error e) : (s.advance.reportUnrecognized (wordAtPc s) s.pc).countdown.Inv := by
  obtain ⟨hmem, ⟨hclear, _⟩, _, _, hstack⟩ := h
  obtain ⟨hok, hpc⟩ := hs
  have hword : decodeWord (wordAtPc s) = .error (.unrecognized (wordAtPc s)) := decodeWord_eq_unrecognized_of_error he
  have hnext : (s.pc + 2#16).toNat ≤ 0x10FE := by bv_omega
  exact ⟨hmem, State.recordOk_of_clear (hclear hok), ⟨nofun, fun _ => ⟨hpc, rfl, rfl, hword⟩⟩, hnext, hstack⟩

/-- R66: the effect of an instruction, run behind the fetch advance on a cleared report. -/
theorem State.inv_effect (h : s.Inv) (hs : CanFetch s) (hu : exec i s.advance.clearReport = .next u)
    (hkept : u.fault = s.fault) : u.countdown.Inv := by
  obtain ⟨hmem, ⟨hclear, _⟩, _, _, hstack⟩ := h
  obtain ⟨hok, hpc⟩ := hs
  have hmem : s.advance.clearReport.MemoryOk := hmem
  have hstack : s.advance.clearReport.StackBounded := hstack
  have hadvanced : s.advance.clearReport.pc.toNat = s.pc.toNat + 2 := by
    rw [State.clearReport_pc, State.advance_pc]
    bv_omega
  have hreport : u.report = .clear := report_eq_clear_of_exec rfl hu
  exact State.inv_of_clear (memoryOk_exec i hmem u hu) (hkept.trans (hclear hok)) hreport
    ⟨pc_le_exec i (by omega) (by omega) hstack u hu, stackBounded_exec i (by omega) hstack u hu⟩

theorem State.inv_step (h : s.Inv) (hstep : step s = .next t) : t.Inv := by
  rcases step_ends s with ⟨_, heq⟩ | ⟨_, _, hf, heq⟩ | ⟨_, hs, he, heq⟩ | ⟨_, _, hs, _, hu, hkept, heq⟩ <;>
    cases hstep.symm.trans heq
  · exact h
  · exact State.inv_takeFault h hf
  · exact State.inv_reportUnrecognized h hs he
  · exact State.inv_effect h hs hu hkept

/-! ## The host's moves (R127) -/

/-- Power-on and `reset()` put `pc` inside the bound of R20. -/
theorem start_le : (0x200#16 : Word).toNat ≤ 0x10FE := by decide

theorem State.stackBounded_reset : State.reset.StackBounded := by decide

theorem State.inv_reset : State.reset.Inv :=
  State.inv_of_clear rfl rfl rfl ⟨start_le, State.stackBounded_reset⟩

theorem State.inv_powerOn (font : Vector Byte 80) : (State.powerOn font).Inv :=
  State.inv_of_clear (State.memoryOk_powerOn font) rfl rfl ⟨start_le, State.stackBounded_reset⟩

/-- `reset()`, and whatever the host writes to memory after it. -/
theorem State.inv_hostReset_setMem (h : s.Inv) {m : Memory} (hm : m.wf = true) : (s.hostReset.setMem m).Inv := by
  obtain ⟨_, _, _, _, hstack⟩ := h
  exact State.inv_of_clear hm rfl rfl ⟨start_le, hstack⟩

theorem State.inv_hostReset (h : s.Inv) : s.hostReset.Inv := State.inv_hostReset_setMem h h.1

/-- R125: an image that is not refused ends inside memory. -/
theorem State.inv_romLoad (h : s.Inv) (source : Option (List Byte)) : (s.romLoad source).2.Inv := by
  cases source with
  | none => exact State.inv_hostReset h
  | some bytes =>
    rcases Nat.lt_or_ge 3584 bytes.length with hgt | hle
    · rw [s.romLoad_of_gt hgt]
      exact State.inv_hostReset h
    · rw [s.romLoad_of_le hle]
      exact State.inv_hostReset_setMem h (Memory.wf_writeBytes bytes s.mem 0x200 h.1 (by omega))

theorem State.inv_act {a : HostAction} (h : s.Inv) (did : act a s = .next t) : t.Inv := by
  cases a with
  | step => exact State.inv_step h did
  | keypad keys =>
    cases did
    exact h
  | reset =>
    cases did
    exact State.inv_hostReset h
  | romLoad source =>
    cases did
    exact State.inv_romLoad h source

end

end Sys2Proof.Machine

namespace Sys2Proof.Claims

open Sys2Proof Sys2Proof.Machine

/-- Settles O19: end by end of the step. -/
theorem everyStepKeepsTheInvariant : Obligations.EveryStepKeepsTheInvariant :=
  fun _ _ h hstep => State.inv_step h hstep

/-- Settles O18: nothing is latched or reported, and `pc` and the stack hold their power-on values. -/
theorem resetMeetsTheInvariant : Obligations.ResetMeetsTheInvariant := State.inv_reset

/-- Settles O20, by induction on the host's moves. -/
theorem everyReachableStateMeetsTheInvariant : Obligations.EveryReachableStateMeetsTheInvariant := by
  intro s reached
  induction reached with
  | powerOn font => exact State.inv_powerOn font
  | act a _ did ih => exact State.inv_act ih did

/-- Settles O21: the canonical form from address 0 on. -/
theorem canonicalMemoriesThatReadAlikeAreEqual : Obligations.CanonicalMemoriesThatReadAlikeAreEqual :=
  fun _ _ hm hn hread => Memory.eq_of_read_eq hm hn hread

/-- Settles O50: the font is what the canonical form lists nothing for, and nothing else is written. -/
theorem powerOnWithTheDefaultFontIsReset : Obligations.PowerOnWithTheDefaultFontIsReset := by
  intro font h
  calc State.powerOn font
      = State.reset.setMem (State.powerOn font).mem := rfl
    _ = State.reset.setMem [] := by rw [State.powerOn_mem_of_defaultFont h]
    _ = State.reset := rfl

/-- Settles O25: the write is one update of the record. -/
theorem keypadWriteTouchesOnlyTheLatch : Obligations.KeypadWriteTouchesOnlyTheLatch := fun _ _ => rfl

end Sys2Proof.Claims
end

section
/-! SUPPORT. Pairs of executions and the timers: a return behind a call (spec/41_control_flow.md), a load behind a store
(spec/44_index_and_memory.md), the cycle of a timer access (spec/45_timers_and_keywait.md), and a sprite drawn twice
(spec/46_display.md). -/

namespace Sys2Proof.Machine

open Sys2Proof Sys2Proof.Claims

/-! ## Timer access (R100, R102, R103) -/

/-- The cycle of an instruction whose word lies at `pc` and which raises no fault, ready for its own effect. -/
theorem step_of_wordAtPc_eq_encode {s u : State} {i : Instr} (h : CanFetch s) (hw : wordAtPc s = encode i)
    (hu : exec i s.advance.clearReport = .next u) (hkept : u.fault = s.fault) : step s = .next u.countdown :=
  step_of_effect h (hw ▸ decodeWord_encode i) hu hkept

theorem State.soundActive_iff (s : State) : s.soundActive = true ↔ 0 < s.st.toNat := by
  rw [State.soundActive, bne_iff_ne, Nat.pos_iff_ne_zero, ← BitVec.toNat_ne_iff_ne]
  rfl

/-! ## A sprite drawn twice (R105, spec/90_conflicts.md C4) -/

theorem collisionFlag_eq_one_iff (hit : Bool) : collisionFlag hit = 1#8 ↔ hit = true := by
  cases hit <;> decide

section

variable {s u : State} {x y : Reg} {n : Nibble} {px py : Nat}

/-- A draw leaves its own sprite where it is, unless the origin comes from `VF`. -/
theorem covers_setReg_vf_setDisp (hx : x ≠ vf) (hy : y ≠ vf) (b : Byte) (d : Display) :
    Covers ((s.setReg vf b).setDisp d) x y n px py ↔ Covers s x y n px py := by
  rw [Covers, State.setDisp_reg, State.setDisp_reg, s.reg_setReg_of_ne b hx, s.reg_setReg_of_ne b hy]
  rfl

/-- A pixel that the drawing lights is one that the sprite covers and that was not lit. -/
theorem State.covers_and_pixel_drawn_iff (hpx : px < 64) (hpy : py < 32) :
    Covers s x y n px py ∧ (s.drawn x y n).1.pixel px py = true ↔
      s.disp.pixel px py = false ∧ (s.drawn x y n).1.pixel px py = true := by
  by_cases h : Covers s x y n px py
  · simp [State.pixel_drawn_of_covers hpx hpy h, h]
  · simp [State.pixel_drawn_of_not_covers hpx hpy h, h]

/-- The same sprite at the same place, over the display that the first drawing left, toggles its pixels back. -/
theorem State.drawn_drawn (hcovers : ∀ px py, Covers u x y n px py ↔ Covers s x y n px py)
    (hdisp : u.disp = (s.drawn x y n).1) : (u.drawn x y n).1 = s.disp := by
  refine Display.ext_pixel _ _ fun px py hpx hpy => ?_
  by_cases h : Covers s x y n px py
  · rw [State.pixel_drawn_of_covers hpx hpy ((hcovers px py).mpr h), hdisp, State.pixel_drawn_of_covers hpx hpy h,
      Bool.not_not]
  · rw [State.pixel_drawn_of_not_covers hpx hpy (mt (hcovers px py).mp h), hdisp,
      State.pixel_drawn_of_not_covers hpx hpy h]

/-- Its collisions are the pixels that the first drawing lit. -/
theorem State.drawn_drawn_hit_iff (hcovers : ∀ px py, Covers u x y n px py ↔ Covers s x y n px py)
    (hdisp : u.disp = (s.drawn x y n).1) : (u.drawn x y n).2 = true ↔
      ∃ px py, px < 64 ∧ py < 32 ∧ s.disp.pixel px py = false ∧ u.disp.pixel px py = true := by
  rw [State.drawn_hit_iff]
  refine exists₂_congr fun px py => and_congr_right fun hpx => and_congr_right fun hpy => ?_
  rw [hcovers, hdisp, State.covers_and_pixel_drawn_iff hpx hpy]

end

end Sys2Proof.Machine

namespace Sys2Proof.Claims

open Sys2Proof Sys2Proof.Machine

/-- Settles O31: the call pushes entry `sp`, and the return pops it. -/
theorem returnGoesBackBehindTheCall : Obligations.ReturnGoesBackBehindTheCall := by
  intro s nnn x hsp
  obtain ⟨k, hk⟩ : ∃ k : Fin 16, s.sp.val = k.val := ⟨⟨s.sp.val, hsp⟩, rfl⟩
  refine ⟨_, exec_call_of_sp_ne_16 nnn (Nat.ne_of_lt hsp), fun later hstack hlater => ?_⟩
  rw [State.push_of_sp_eq s.pc hk] at hstack hlater
  have hsp' : later.sp.val = k.val + 1 := congrArg Fin.val hlater
  have hpc : later.stack[k] = s.pc := by
    rw [hstack]
    exact Vector.getElem_set_self k.isLt
  refine ⟨_, exec_ret_of_sp_ne_zero x (hsp' ▸ Nat.succ_ne_zero _), ?_⟩
  rw [State.pop_of_sp_eq_succ hsp']
  exact ⟨hpc, Fin.ext hk.symm, rfl⟩

/-- Settles O39: the draw is one argument of the opaque free value, and the library tells its AND bit by bit. -/
theorem randomWritesTheMaskedDraw : Obligations.RandomWritesTheMaskedDraw := by
  refine ⟨encoded_of_mem_tier3 (tag := .RND) (by decide), fun s x kk => ?_⟩
  refine ⟨_, rfl, fun k => ?_, fun z hz => s.takeDraw.reg_setReg_of_ne _ hz, rfl, rfl⟩
  rw [State.reg_setReg_self]
  exact BitVec.getElem_and k.isLt

/-- Settles O44: the load reads the bytes that the store wrote, register by register. -/
theorem loadAfterStoreRestoresTheRegisters : Obligations.LoadAfterStoreRestoresTheRegisters := by
  intro s x hle
  refine ⟨_, exec_ldMemVx_of_le hle, fun later hmem hindex => ?_⟩
  have hindex : later.index = s.index := hindex
  refine ⟨_, exec_ldVxMem_of_le (hindex ▸ hle), fun r hr => ?_⟩
  rw [State.reg_loadRegs_readBytes, if_pos hr, hmem, hindex]
  exact s.read_writeBytes_firstRegs s.mem _ hr

/-- Settles O45: each form is one write, and the countdown of its cycle follows it. -/
theorem timerAccessMovesTheTimers : Obligations.TimerAccessMovesTheTimers := by
  refine ⟨encoded_of_mem_tier1 (tag := .LD_VX_DT) (by decide), encoded_of_mem_tier1 (tag := .LD_DT_VX) (by decide),
    encoded_of_mem_tier1 (tag := .LD_ST_VX) (by decide), fun s x => ?_⟩
  refine ⟨⟨_, rfl, writesOnly_setReg s x s.dt⟩, rfl, rfl, fun hs => ?_⟩
  refine ⟨fun hw => ?fromDt, fun hw => ?toDt, fun hw => ?toSt⟩
  case fromDt =>
    exact ⟨_, step_of_wordAtPc_eq_encode (i := .ldVxDt x) hs hw rfl rfl,
      State.reg_setReg_self _ x s.dt, toNat_tick s.dt⟩
  case toDt => exact ⟨_, step_of_wordAtPc_eq_encode (i := .ldDtVx x) hs hw rfl rfl, toNat_tick (s.reg x)⟩
  case toSt =>
    have hst : (tick (s.reg x)).toNat = (s.reg x).toNat - 1 := toNat_tick (s.reg x)
    refine ⟨_, step_of_wordAtPc_eq_encode (i := .ldStVx x) hs hw rfl rfl, hst, ?_⟩
    rw [State.soundActive_iff]
    change 0 < (tick (s.reg x)).toNat ↔ _
    rw [hst, Nat.sub_pos_iff_lt]

/-- Settles O49: the first draw leaves memory, `I` and the origin, so the second toggles the same pixels back. -/
theorem drawingTwiceRestoresTheDisplay : Obligations.DrawingTwiceRestoresTheDisplay := by
  intro s x y n hx hy hle
  refine ⟨_, _, exec_drw_of_le hle, exec_drw_of_le hle, ?_⟩
  refine ⟨State.drawn_drawn (fun _ _ => covers_setReg_vf_setDisp hx hy _ _) rfl, ?_⟩
  rw [State.setDisp_reg, State.reg_setReg_self, collisionFlag_eq_one_iff]
  exact State.drawn_drawn_hit_iff (fun _ _ => covers_setReg_vf_setDisp hx hy _ _) rfl

end Sys2Proof.Claims
end
